-- ==== Sys2Proof/Word.lean ====
section
/-! DEFINITION. The word type: one memory cell, one queue element, one instruction or parameter word, and the
contents of the registers `pc` and `rb`, all 64 bits wide (00_scope.md R5, R6). -/

namespace Sys2Proof

/-- A 64-bit word. Read as a signed two's complement integer (`BitVec.toInt`) it is an `i64` of R6;
the program counter alone reads it as an unsigned integer (`BitVec.toNat`, R14, decision D9). -/
abbrev Word := BitVec 64

end Sys2Proof
end

