-- ==== Sys2Proof/Syntax.lean ====
section
/-! DEFINITION. The instructions: one constructor per row of spec/opcode_table.json, with the parameter modes of
its instruction word (30_encoding.md R47, R55, R56). A parameter WORD is no part of an instruction here: it is a
memory cell, fetched when the parameter is resolved (R52 to R54), which is when its fetch may fault or zero-fill
(log entry 7). -/

namespace Sys2Proof

/-- A parameter mode (R47, R53, R54). A digit 3 to 9 decodes, and faults only when its parameter is resolved (R51),
so the decoder keeps it. -/
inductive Mode
  /-- Mode digit 0: the parameter is an address. -/
  | position
  /-- Mode digit 1: the parameter is the value. -/
  | immediate
  /-- Mode digit 2: the parameter is an offset from `rb`. -/
  | relative
  /-- Mode digit `k + 3`, that is 3 to 9: no mode of the machine (R51). -/
  | undefined (k : Fin 7)
deriving DecidableEq, Repr

/-- The ten instructions (R2, R56), each with the modes of its parameters in index order. -/
inductive Instr
  /-- Opcode 1, `mem[c] = a + b` (R64). -/
  | add (m1 m2 m3 : Mode)
  /-- Opcode 2, `mem[c] = a * b` (R65). -/
  | mul (m1 m2 m3 : Mode)
  /-- Opcode 3, IN: `mem[a] = pop_front(input)`, or suspend (R67). -/
  | inp (m1 : Mode)
  /-- Opcode 4, OUT: `push_back(output, a)` (R68). -/
  | out (m1 : Mode)
  /-- Opcode 5, jump if true (R69). -/
  | jt (m1 m2 : Mode)
  /-- Opcode 6, jump if false (R70). -/
  | jf (m1 m2 : Mode)
  /-- Opcode 7, `mem[c] = 1 if a < b else 0` (R72). -/
  | lt (m1 m2 m3 : Mode)
  /-- Opcode 8, `mem[c] = 1 if a == b else 0` (R73). -/
  | eq (m1 m2 m3 : Mode)
  /-- Opcode 9, `rb += a` (R74). -/
  | arb (m1 : Mode)
  /-- Opcode 99, set `Halted` (R75). -/
  | hlt
deriving DecidableEq, Repr

end Sys2Proof
end

