-- ==== Sys2Proof/WellFormed.lean ====
section
/-! DEFINITION. Which modes each parameter may have (30_encoding.md R51, R54 to R56): a read parameter 0, 1 or 2; a
write parameter 0 or 2. An ill-formed instruction still decodes; it faults when the parameter is resolved. -/

namespace Sys2Proof

/-- R53: a read parameter has mode 0, 1 or 2. -/
def Mode.legalRead : Mode → Bool
  | .position => true
  | .immediate => true
  | .relative => true
  | .undefined _ => false

/-- R54: a write parameter has mode 0 or 2. -/
def Mode.legalWrite : Mode → Bool
  | .position => true
  | .immediate => false
  | .relative => true
  | .undefined _ => false

/-- The modes are those the opcode map allows (R56), each parameter in the role R55 gives it. -/
def Instr.wellFormed : Instr → Bool
  | .add m1 m2 m3 => m1.legalRead && m2.legalRead && m3.legalWrite
  | .mul m1 m2 m3 => m1.legalRead && m2.legalRead && m3.legalWrite
  | .inp m1 => m1.legalWrite
  | .out m1 => m1.legalRead
  | .jt m1 m2 => m1.legalRead && m2.legalRead
  | .jf m1 m2 => m1.legalRead && m2.legalRead
  | .lt m1 m2 m3 => m1.legalRead && m2.legalRead && m3.legalWrite
  | .eq m1 m2 m3 => m1.legalRead && m2.legalRead && m3.legalWrite
  | .arb m1 => m1.legalRead
  | .hlt => true

end Sys2Proof
end

