-- ==== Sys2Proof/Decode.lean ====
section
/-! DEFINITION. The decoder, total on every word, and after it the encoder (30_encoding.md R46 to R51, R56 to R59).
The word is read in decimal digits (00_scope.md R7). -/

namespace Sys2Proof

/-- `digit(w, k) = (w div 10^k) mod 10` (R7), position 0 the units digit. -/
def digit (w k : Nat) : Nat := w / 10 ^ k % 10

/-- The mode a digit names (R47, R51). -/
def modeOfDigit (d : Nat) : Mode :=
  match d with
  | 0 => .position
  | 1 => .immediate
  | 2 => .relative
  | d => .undefined (Fin.ofNat 7 (d - 3))

/-- The mode of parameter `i` (1-based) is the digit at position `i + 1` (R49). -/
def paramMode (w i : Nat) : Mode := modeOfDigit (digit w (i + 1))

/-- Why a word is no instruction (R57, first two rows). Both raise `InvalidOpcode` (R77). -/
inductive DecodeError
  /-- The word is negative, so it has no opcode (R48, decision D2). -/
  | negativeWord
  /-- `w mod 100` is no opcode of the table (R77). -/
  | unknownOpcode (op : Nat)
deriving DecidableEq, Repr

/-- The instruction an instruction word stands for (R48, R49, R50, R56). -/
def decode (w : Word) : Except DecodeError Instr :=
  if w.toInt < 0 then .error .negativeWord
  else
    let n := w.toNat
    match n % 100 with
    | 1 => .ok (.add (paramMode n 1) (paramMode n 2) (paramMode n 3))
    | 2 => .ok (.mul (paramMode n 1) (paramMode n 2) (paramMode n 3))
    | 3 => .ok (.inp (paramMode n 1))
    | 4 => .ok (.out (paramMode n 1))
    | 5 => .ok (.jt (paramMode n 1) (paramMode n 2))
    | 6 => .ok (.jf (paramMode n 1) (paramMode n 2))
    | 7 => .ok (.lt (paramMode n 1) (paramMode n 2) (paramMode n 3))
    | 8 => .ok (.eq (paramMode n 1) (paramMode n 2) (paramMode n 3))
    | 9 => .ok (.arb (paramMode n 1))
    | 99 => .ok .hlt
    | op => .error (.unknownOpcode op)

/-- The digit that names a mode (R47). -/
def Mode.digit : Mode → Nat
  | .position => 0
  | .immediate => 1
  | .relative => 2
  | .undefined k => k.val + 3

/-- The opcode number (R56). -/
def Instr.opcode : Instr → Nat
  | .add _ _ _ => 1
  | .mul _ _ _ => 2
  | .inp _ => 3
  | .out _ => 4
  | .jt _ _ => 5
  | .jf _ _ => 6
  | .lt _ _ _ => 7
  | .eq _ _ _ => 8
  | .arb _ => 9
  | .hlt => 99

/-- "arity = count of parameters, excluding opcode+mode word" (R46, R56). -/
def Instr.arity : Instr → Nat
  | .add _ _ _ => 3
  | .mul _ _ _ => 3
  | .inp _ => 1
  | .out _ => 1
  | .jt _ _ => 2
  | .jf _ _ => 2
  | .lt _ _ _ => 3
  | .eq _ _ _ => 3
  | .arb _ => 1
  | .hlt => 0

/-- length = 1 + arity (R58). -/
def Instr.length (i : Instr) : Nat := 1 + i.arity

/-- `op + 100*m1 + 1000*m2 + 10000*m3` (R59). -/
def canonicalNumber (op : Nat) (m1 m2 m3 : Mode) : Nat :=
  op + 100 * m1.digit + 1000 * m2.digit + 10000 * m3.digit

/-- The canonical instruction word as a number (R59): a parameter the opcode does not have has mode digit 0. -/
def Instr.canonical : Instr → Nat
  | .add m1 m2 m3 => canonicalNumber 1 m1 m2 m3
  | .mul m1 m2 m3 => canonicalNumber 2 m1 m2 m3
  | .inp m1 => canonicalNumber 3 m1 .position .position
  | .out m1 => canonicalNumber 4 m1 .position .position
  | .jt m1 m2 => canonicalNumber 5 m1 m2 .position
  | .jf m1 m2 => canonicalNumber 6 m1 m2 .position
  | .lt m1 m2 m3 => canonicalNumber 7 m1 m2 m3
  | .eq m1 m2 m3 => canonicalNumber 8 m1 m2 m3
  | .arb m1 => canonicalNumber 9 m1 .position .position
  | .hlt => canonicalNumber 99 .position .position .position

/-- The canonical instruction word (R59). -/
def encode (i : Instr) : Word := BitVec.ofNat 64 i.canonical

/-- The cells of an instruction: the canonical word "followed by its parameter words" (R46, R59). Nothing when the
number of parameter words is not the arity. -/
def encodeCells (i : Instr) (params : List Word) : Option (List Word) :=
  if params.length = i.arity then some (encode i :: params) else none

/-- Cell `k` of an instruction given as one number whose bit 0 is the least significant bit of the first cell and
whose later cells' bits count on from it (the host's numbering, log entry 15); bits from `nbits` up are 0. -/
def tableCell (nbits w k : Nat) : Word := BitVec.ofNat 64 (w % 2 ^ nbits / 2 ^ (64 * k))

/-- The instruction the decoder reads from a table word: it decodes the first cell, for the opcode alone fixes the
length (R58) and the parameter words hold no part of the instruction's form. -/
def decodeTableWord (nbits w : Nat) : Option Instr :=
  match decode (tableCell nbits w 0) with
  | .ok i => some i
  | .error _ => none

end Sys2Proof
end

