-- ==== Sys2Proof/Config.lean ====
section
/-! DEFINITION. The parameters an implementation fixes (00_scope.md R5) and the free values: what the spec leaves
unspecified after a fault (60_exceptions.md R86, 93_implementation_defined.md U1). -/

namespace Sys2Proof

/-- `OVERFLOW_POLICY` (R5, decision D5): what Add, Multiply and Adjust relative base do when the exact result is
outside `i64`. -/
inductive OverflowPolicy
  | fault
  | wrap
deriving DecidableEq, Repr

/-- The parameters the spec leaves OPEN (R5). They stand in `State` (log entry 1), so that a statement about every
state is a statement about every value of them. -/
structure Config where
  /-- `MEM_LIMIT`, the number of cells the memory can hold (decision D7); "unbounded" is the value 2^63. -/
  memLimit : Nat
  /-- `OVERFLOW_POLICY` (decision D5). -/
  overflowPolicy : OverflowPolicy
  /-- `STEP_BUDGET` (decision D20); `none` is "unbounded". -/
  stepBudget : Option Nat
deriving DecidableEq, Repr

/-- The reference values of R5: `MEM_LIMIT` = 2^63, `OVERFLOW_POLICY` = `Fault`, `STEP_BUDGET` unbounded. -/
def Config.reference : Config :=
  { memLimit := 2 ^ 63, overflowPolicy := .fault, stepBudget := none }

/-- The parameter values R5 allows: 1 <= `MEM_LIMIT` <= 2^63, and a `STEP_BUDGET` that is positive or unbounded. -/
def Config.legal (c : Config) : Bool :=
  decide (1 ≤ c.memLimit) && decide (c.memLimit ≤ 2 ^ 63) &&
    (match c.stepBudget with
     | none => true
     | some n => decide (0 < n))

/-! The free values of R86: "After the fault, the values of `M`, `L`, `pc`, `rb`, `IQ` and `OQ` are
**unspecified**". Each is an opaque function of the counter `State.freeDraws`; none has a body (log entry 2). -/

/-- The memory cells after a fault, as (address, value) pairs in no particular order. -/
opaque Config.freeCells : Nat → List (Nat × Word)

/-- The extent after a fault. -/
opaque Config.freeExtent : Nat → Nat

/-- The program counter after a fault. -/
opaque Config.freePc : Nat → Word

/-- The relative base after a fault. -/
opaque Config.freeRb : Nat → Word

/-- The input queue after a fault. -/
opaque Config.freeInputQueue : Nat → List Word

/-- The output queue after a fault. -/
opaque Config.freeOutputQueue : Nat → List Word

end Sys2Proof
end

