-- ==== Sys2Proof/Machine/State.lean ====
section
/-! DEFINITION. The state of one engine instance (10_state.md R11), as plain data, with the host's side of the
interface (70_reset_and_hazards.md R104) and the value of every field at reset. -/

namespace Sys2Proof.Machine

/-- The Memory `M` with its extent `L` (R23). `cells` lists the cells that do not hold 0, addresses strictly rising;
an unlisted cell reads 0 (R35). The cell, not the byte, is the unit of addressing (R27, R28; log entry 3). -/
structure Memory where
  cells : List (Nat × Word)
  extent : Nat
deriving DecidableEq, Repr

/-- The run state (R16). -/
inductive RunState
  | running
  | awaitingInput
  | halted
  | faulted
deriving DecidableEq, Repr

/-- The fault kinds (60_exceptions.md R76). -/
inductive FaultKind
  | invalidOpcode
  | invalidWriteTarget
  | addressFault
  | invalidMode
  | arithmeticOverflow
  | memoryExhausted
  | stepLimitExceeded
  /-- Raised by the host-side loader only, never by the engine (R84). -/
  | parseError
deriving DecidableEq, Repr

/-- The index of a parameter, 1 to 3 (R49, R85). -/
inductive ParamIndex
  | first
  | second
  | third
deriving DecidableEq, Repr

/-- What `raise <Fault>(info)` carries (00_scope.md R9, R76): the kind, the parameter that caused it, and the value
recorded, an exact integer. -/
structure Raise where
  kind : FaultKind
  param : Option ParamIndex
  value : Int
deriving DecidableEq, Repr

/-- The fault record (R85). -/
structure FaultRecord where
  kind : FaultKind
  code : Nat
  pc : Word
  word : Option Word
  param : Option ParamIndex
  value : Option Int
deriving DecidableEq, Repr

/-- The host commands on an instance (R104). `parse_program` is no command on an instance: Machine/Loader.lean. -/
inductive Command
  /-- Discard this instance and build a new one from the image (R105, R87). -/
  | fromProgram (image : List Word)
  | reset (image : List Word)
  | writeInput (v : Word)
  | run
  | readOutput
  | halted
  | peekMemory
deriving DecidableEq, Repr

/-- The result of an accepted host command (the "result" column of R104). -/
inductive Reply
  /-- `from_program`: the new instance stands. -/
  | ready
  /-- `reset` and `write_input`: no result. -/
  | done
  /-- `run`: `Ok` (R91). -/
  | ok
  /-- `run`: the error result carrying the fault record (R86). -/
  | faulted (record : FaultRecord)
  /-- `read_output`: the oldest queued output (R109). -/
  | value (v : Word)
  /-- `read_output`: the output queue was empty (R109). -/
  | empty
  /-- `halted` (R110). -/
  | flag (b : Bool)
  /-- `peek_memory`: `M[0]` .. `M[L-1]` (R111). -/
  | memory (image : List Word)
deriving DecidableEq, Repr

/-- Why a step is no step of the machine. A fault of the SPEC is none of these: it is a next state, in which the run
state is `Faulted` and the record is kept (R86). -/
inductive Fault
  /-- Raised by `step` when no `run` is in progress and the host has no further command: the engine executes nothing
  until the host issues one (R103, U15). Safe: the model stops where the hardware waits. -/
  | idle
  /-- Raised by `step` when `busy` is 1 in a run state other than `Running`, which no run of the machine reaches
  (R60, R91). Safe. -/
  | busyNotRunning
deriving DecidableEq, Repr

/-- Why the model gives something no meaning. -/
inductive Refusal
  /-- An instruction with no meaning in the model; no arm of `exec` answers it. Safe. -/
  | notModelled (mnemonic : String)
  /-- Raised by `hostCommand`: a command other than `from_program` on an instance in `Faulted` (R87, D13). Safe. -/
  | instanceFaulted
  /-- Raised by `hostCommand` and `createInstance`: an image that is empty or longer than `MEM_LIMIT` (R105, R106,
  D17). Safe. -/
  | illegalImage
  /-- Raised by `hostCommand`: a command while `busy` is 1 (R20, U14). Safe. -/
  | commandWhileBusy
  /-- Raised by `stepInstance`: the host holds no such instance (R100). Safe. -/
  | noSuchInstance
deriving DecidableEq, Repr

end Sys2Proof.Machine

namespace Sys2Proof.Machine

/-- The state of one engine instance (R11), with the implementation's parameters, the host's side of the interface
and the counter of free values. -/
structure State where
  /-- The parameters of R5; no step changes them. The model's own field (log entry 1). -/
  cfg : Config
  /-- `M` and `L` (R23, R25). -/
  mem : Memory
  /-- `pc`, 64-bit unsigned (R14). -/
  pc : Word
  /-- `rb`, 64-bit signed (R15). -/
  rb : Word
  /-- `state`, the run state (R16). -/
  state : RunState
  /-- `IQ`, oldest first (R22). -/
  iq : List Word
  /-- `OQ`, oldest first (R22). -/
  oq : List Word
  /-- `busy` (R20). -/
  busy : Bool
  /-- `steps`, the instructions completed in this `run` (R21). -/
  steps : Nat
  /-- `fault`, the fault record (R19, R85). -/
  fault : Option FaultRecord
  /-- The commands the host has still to issue, the next first. The model's own field (log entry 4). -/
  commands : List Command
  /-- The results the host has been given, oldest first. The model's own field (log entry 4). -/
  replies : List Reply
  /-- How many free values have been drawn. The model's own field (log entry 2). -/
  freeDraws : Nat
deriving DecidableEq, Repr

/-- The load state of R26 for the one-cell image `0`, with no host command waiting: pc 0, rb 0, `Running`, both
queues empty, busy 0, steps 0, no fault record, memory with nothing listed, the parameters at their reference values
(log entry 5). -/
def State.reset : State :=
  { cfg := Config.reference
    mem := { cells := [], extent := 1 }
    pc := 0#64
    rb := 0#64
    state := .running
    iq := []
    oq := []
    busy := false
    steps := 0
    fault := none
    commands := []
    replies := []
    freeDraws := 0 }

end Sys2Proof.Machine
end

