-- ==== Sys2Proof/Machine/Flags.lean ====
section
/-! DEFINITION. What stands in the place of flags. "There are **no condition codes, status flags or predicates**"
(10_state.md R18): an out-of-range result is handled by the ALU result rule (40_arithmetic.md R63) and a comparison
writes 1 or 0 (43_compare.md R72, R73). -/

namespace Sys2Proof.Machine

/-- `in_i64(v)` (R6): -2^63 <= v <= 2^63 - 1. -/
def inI64 (v : Int) : Bool := decide (-(2 ^ 63) ≤ v) && decide (v ≤ 2 ^ 63 - 1)

/-- `wrap64(v)` (R8): the word congruent to `v` modulo 2^64. -/
def wrap64 (v : Int) : Word := BitVec.ofInt 64 v

/-- `AluResult(r)` (R63). In range, `wrap64` is the result itself. -/
def aluResult (cfg : Config) (r : Int) : Except Raise Word :=
  if inI64 r then .ok (wrap64 r)
  else
    match cfg.overflowPolicy with
    | .wrap => .ok (wrap64 r)
    | .fault => .error ⟨.arithmeticOverflow, none, r⟩

/-- The result of a comparison: exactly 1 or 0 (R66, R72, R73). -/
def truthWord (b : Bool) : Word := if b then 1#64 else 0#64

end Sys2Proof.Machine
end

