-- ==== Sys2Proof/Machine/Memory.lean ====
section
/-! DEFINITION. The Memory as data: reading a cell, the zero-fill extension, writing a cell, its canonical form, and
its making from an image (20_memory.md R27, R32 to R35; 70_reset_and_hazards.md R105, R111). -/

namespace Sys2Proof.Machine

/-- The value listed for address `a`; an unlisted cell holds 0 (R35). -/
def lookupCell : List (Nat × Word) → Nat → Word
  | [], _ => 0#64
  | (k, x) :: rest, a => if k = a then x else lookupCell rest a

/-- Sets address `a` to `v` in a rising list; a cell that holds 0 is not listed. -/
def insertCell : List (Nat × Word) → Nat → Word → List (Nat × Word)
  | [], a, v => if v = 0#64 then [] else [(a, v)]
  | (k, x) :: rest, a, v =>
    if a < k then (if v = 0#64 then (k, x) :: rest else (a, v) :: (k, x) :: rest)
    else if a = k then (if v = 0#64 then rest else (a, v) :: rest)
    else (k, x) :: insertCell rest a v

/-- The addresses rise strictly from `lo`, stay below `hi`, and no listed value is 0. -/
def risingCells : Nat → Nat → List (Nat × Word) → Bool
  | _, _, [] => true
  | lo, hi, (k, x) :: rest =>
    decide (lo ≤ k) && decide (k < hi) && decide (x ≠ 0#64) && risingCells (k + 1) hi rest

/-- The canonical form: addresses strictly rising and below the extent, no listed value 0. Cells at or beyond the
extent do not exist yet (R23). -/
def Memory.wf (m : Memory) : Bool := risingCells 0 m.extent m.cells

/-- The value of cell `a` (R33, R35). It is the read itself; `Memory.touch` is the extension it may make. -/
def Memory.read (m : Memory) (a : Nat) : Word := lookupCell m.cells a

/-- The zero-fill extension "up to and including that index" (R32): the new cells hold 0, so none is listed. -/
def Memory.touch (m : Memory) (a : Nat) : Memory :=
  if m.extent ≤ a then { m with extent := a + 1 } else m

/-- The extensions of several accesses, in order. -/
def Memory.touchAll (m : Memory) (cells : List Nat) : Memory := cells.foldl Memory.touch m

/-- The write of one cell, after the extension its access makes (R34). -/
def Memory.write (m : Memory) (a : Nat) (v : Word) : Memory :=
  { (m.touch a) with cells := insertCell m.cells a v }

/-- The listed cells of an image whose first cell is at `start`. -/
def imageCells : Nat → List Word → List (Nat × Word)
  | _, [] => []
  | start, w :: rest =>
    if w = 0#64 then imageCells (start + 1) rest else (start, w) :: imageCells (start + 1) rest

/-- A copy of an image at 0 .. len - 1; "Initial length = program length" (R23, R26). -/
def Memory.ofImage (image : List Word) : Memory :=
  { cells := imageCells 0 image, extent := image.length }

/-- `M[0]`, `M[1]`, ..., `M[L-1]` (R111). -/
def Memory.toImage (m : Memory) : List Word := (List.range m.extent).map m.read

/-- The canonical list of some (address, value) pairs below `hi`, an earlier pair winning over a later one. -/
def collectCells (hi : Nat) : List (Nat × Word) → List (Nat × Word)
  | [] => []
  | (a, v) :: rest => if a < hi then insertCell (collectCells hi rest) a v else collectCells hi rest

/-- The memory after a fault: any cells and any extent (R86), brought into canonical form. -/
def freeMemory (draw : Nat) : Memory :=
  { cells := collectCells (Config.freeExtent draw) (Config.freeCells draw)
    extent := Config.freeExtent draw }

end Sys2Proof.Machine
end

