-- ==== Sys2Proof/Machine/Ops.lean ====
section
/-! DEFINITION. The named operations over the state: one setter per field an operation changes, memory access with
its checks (20_memory.md R32 to R34), the queues (00_scope.md R9), and taking a fault (60_exceptions.md R85, R86).
There is no return from a fault (R94): `Faulted` is terminal (R87). -/

namespace Sys2Proof.Machine

/-- Replaces the Memory. -/
def State.setMem (s : State) (m : Memory) : State := { s with mem := m }

/-- Writes the program counter. -/
def State.setPc (s : State) (v : Word) : State := { s with pc := v }

/-- Writes the relative base. -/
def State.setRb (s : State) (v : Word) : State := { s with rb := v }

/-- Writes the run state. -/
def State.setRunState (s : State) (r : RunState) : State := { s with state := r }

/-- Replaces the input queue. -/
def State.setIq (s : State) (q : List Word) : State := { s with iq := q }

/-- Replaces the output queue. -/
def State.setOq (s : State) (q : List Word) : State := { s with oq := q }

/-- Writes the busy flag. -/
def State.setBusy (s : State) (b : Bool) : State := { s with busy := b }

/-- Writes the step counter. -/
def State.setSteps (s : State) (n : Nat) : State := { s with steps := n }

/-- Gives the host the result of its command. -/
def State.reply (s : State) (r : Reply) : State := { s with replies := s.replies ++ [r] }

/-- `push_back(OQ, v)` (R9, R22). -/
def State.pushOutput (s : State) (v : Word) : State := s.setOq (s.oq ++ [v])

/-- `push_back(IQ, v)` (R9, R22). -/
def State.pushInput (s : State) (v : Word) : State := s.setIq (s.iq ++ [v])

/-- `pc <- pc + n` (R14). The sum stays below 2^64 for every instruction that completes, so nothing wraps
(log entry 13). -/
def State.advance (s : State) (n : Nat) : State := s.setPc (s.pc + BitVec.ofNat 64 n)

/-- The fault codes (R76). -/
def FaultKind.code : FaultKind → Nat
  | .invalidOpcode => 1
  | .invalidWriteTarget => 2
  | .addressFault => 3
  | .invalidMode => 4
  | .arithmeticOverflow => 5
  | .memoryExhausted => 6
  | .stepLimitExceeded => 7
  | .parseError => 8

/-- The number of a parameter index (R49). -/
def ParamIndex.toNat : ParamIndex → Nat
  | .first => 1
  | .second => 2
  | .third => 3

/-- The fault record of a raise (R85): `pc` is the index of the faulting instruction's word, or of the instruction
that would have run next, which is what the program counter holds in both cases (R14). -/
def faultRecord (word : Option Word) (r : Raise) (s : State) : FaultRecord :=
  { kind := r.kind
    code := r.kind.code
    pc := s.pc
    word := word
    param := r.param
    value := some r.value }

/-- TAKING A FAULT (R86): the instruction ends at once, the run state becomes `Faulted`, the record is kept, `busy`
becomes 0, and the `run` returns the record as its error result. The memory, the extent, `pc`, `rb` and both queues
are unspecified from here on: free values (log entry 2). -/
def takeFault (word : Option Word) (r : Raise) (s : State) : State :=
  { s with
    state := .faulted
    fault := some (faultRecord word r s)
    busy := false
    replies := s.replies ++ [.faulted (faultRecord word r s)]
    mem := freeMemory s.freeDraws
    pc := Config.freePc s.freeDraws
    rb := Config.freeRb s.freeDraws
    iq := Config.freeInputQueue s.freeDraws
    oq := Config.freeOutputQueue s.freeDraws
    freeDraws := s.freeDraws + 1 }

/-- The checks of `Access(i)` on an exact address (R31, R32). `param` is the parameter being handled, or none for
the instruction fetch (R85). -/
def checkAddress (cfg : Config) (param : Option ParamIndex) (a : Int) : Except Raise Nat :=
  if a < 0 then .error ⟨.addressFault, param, a⟩
  else if (cfg.memLimit : Int) ≤ a then .error ⟨.memoryExhausted, param, a⟩
  else .ok a.toNat

/-- `MemRead(a, 1)` (R33): the access, with its zero-fill extension, then the cell's value. -/
def memRead (param : Option ParamIndex) (a : Int) (s : State) : Except Raise (Word × State) :=
  match checkAddress s.cfg param a with
  | .error r => .error r
  | .ok n => .ok (s.mem.read n, s.setMem (s.mem.touch n))

/-- `MemWrite(a, 1, v)` (R34) at an address that was checked when the write target was resolved: "the write, which
cannot fault, because its address was checked in step 5" (R88; log entry 14). -/
def memWrite (a : Nat) (v : Word) (s : State) : State := s.setMem (s.mem.write a v)

/-- How an instruction ends: with the state its pseudocode leaves, or, where it raised, by taking the fault. The word
recorded is the instruction's own, which still stands at `pc`, since every raise precedes the write (R41, R88; log
entry 17). -/
def finish (s : State) (result : Except Raise State) : Host.Outcome State Fault Refusal :=
  match result with
  | .ok t => .next t
  | .error r => .next (takeFault (some (s.mem.read s.pc.toNat)) r s)

/-- Stores `words` in consecutive cells from `a`, leaving out cells the memory cannot hold. -/
def storeCells (limit : Nat) : Nat → List Word → Memory → Memory
  | _, [], m => m
  | a, w :: rest, m => storeCells limit (a + 1) rest (if a < limit then m.write a w else m)

end Sys2Proof.Machine
end

