-- ==== Sys2Proof/Machine/Operands.lean ====
section
/-! DEFINITION. The operand forms (30_encoding.md R52 to R55): resolving a read parameter to a value and a write
parameter to an address, and the two shapes that several instructions share. -/

namespace Sys2Proof.Machine

/-- The address of parameter word `i`: the exact sum `pc + i` (R31). -/
def paramAddress (i : ParamIndex) (s : State) : Int := (s.pc.toNat : Int) + (i.toNat : Int)

/-- The exact address a parameter word names (R31): `rb + p` in relative mode, `p` otherwise. -/
def effectiveAddress (m : Mode) (s : State) (p : Word) : Int :=
  match m with
  | .relative => s.rb.toInt + p.toInt
  | .position => p.toInt
  | .immediate => p.toInt
  | .undefined _ => p.toInt

/-- The fetch of parameter word `i` (R52). -/
def fetchParam (i : ParamIndex) (s : State) : Except Raise (Word × State) :=
  memRead (some i) (paramAddress i s) s

/-- `InvalidMode(param = i, value = m)` (R51, R80). -/
def invalidMode (i : ParamIndex) (m : Mode) : Raise := ⟨.invalidMode, some i, (m.digit : Int)⟩

/-- `ReadParam(i)` (R53): the value of a read parameter. -/
def readParam (i : ParamIndex) (m : Mode) (s : State) : Except Raise (Word × State) :=
  match fetchParam i s with
  | .error r => .error r
  | .ok (p, s1) =>
    match m with
    | .position => memRead (some i) (effectiveAddress m s1 p) s1
    | .immediate => .ok (p, s1)
    | .relative => memRead (some i) (effectiveAddress m s1 p) s1
    | .undefined _ => .error (invalidMode i m)

/-- The address checks of a write target at its resolution (R54, decision D15); the cell itself is not touched. -/
def checkTarget (i : ParamIndex) (a : Int) (s : State) : Except Raise (Nat × State) :=
  match checkAddress s.cfg (some i) a with
  | .error r => .error r
  | .ok n => .ok (n, s)

/-- `WriteAddr(i)` (R54): the address of a write parameter. -/
def writeAddr (i : ParamIndex) (m : Mode) (s : State) : Except Raise (Nat × State) :=
  match fetchParam i s with
  | .error r => .error r
  | .ok (p, s1) =>
    match m with
    | .position => checkTarget i (effectiveAddress m s1 p) s1
    | .immediate => .error ⟨.invalidWriteTarget, some i, p.toInt⟩
    | .relative => checkTarget i (effectiveAddress m s1 p) s1
    | .undefined _ => .error (invalidMode i m)

/-- The shape of opcodes 1, 2, 7 and 8 (R64, R65, R72, R73): read `a` and `b`, resolve `c`, then compute, write the
result into cell `c` and advance by 4. Every read precedes the write (R41). -/
def computeAndStore (m1 m2 m3 : Mode) (op : Config → Int → Int → Except Raise Word) (s : State) :
    Except Raise State := do
  let (a, s1) ← readParam .first m1 s
  let (b, s2) ← readParam .second m2 s1
  let (c, s3) ← writeAddr .third m3 s2
  let r ← op s3.cfg a.toInt b.toInt
  return (memWrite c r s3).advance 4

/-- The shape of opcodes 5 and 6 (R69, R70): both parameters are read whether or not the jump is taken (decision
D10); a taken jump to a negative target raises `AddressFault`, which no parameter caused (R85, decision D9). -/
def conditionalJump (m1 m2 : Mode) (taken : Int → Bool) (s : State) : Except Raise State := do
  let (a, s1) ← readParam .first m1 s
  let (b, s2) ← readParam .second m2 s1
  if taken a.toInt then
    if b.toInt < 0 then throw ⟨.addressFault, none, b.toInt⟩
    else return s2.setPc b
  else return s2.advance 3

end Sys2Proof.Machine
end

