-- ==== Sys2Proof/Machine/Arithmetic.lean ====
section
/-! DEFINITION. ADD and MUL (40_arithmetic.md R63 to R66). -/

namespace Sys2Proof.Machine

/-- ADD (R64): `mem[c] = a + b`, the exact sum under the ALU result rule. -/
def execAdd (m1 m2 m3 : Mode) (s : State) : Host.Outcome State Fault Refusal :=
  finish s (computeAndStore m1 m2 m3 (fun cfg a b => aluResult cfg (a + b)) s)

/-- MUL (R65): `mem[c] = a * b`, the exact product under the ALU result rule. -/
def execMul (m1 m2 m3 : Mode) (s : State) : Host.Outcome State Fault Refusal :=
  finish s (computeAndStore m1 m2 m3 (fun cfg a b => aluResult cfg (a * b)) s)

end Sys2Proof.Machine
end

