-- ==== Sys2Proof/Machine/BaseAndHalt.lean ====
section
/-! DEFINITION. ARB and HLT (44_base_and_halt.md R74, R75). -/

namespace Sys2Proof.Machine

/-- The pseudocode of ARB (R74): a relative-mode operand uses the old `rb`. -/
def adjustBase (m1 : Mode) (s : State) : Except Raise State := do
  let (a, s1) ← readParam .first m1 s
  let r ← aluResult s1.cfg (s1.rb.toInt + a.toInt)
  return (s1.setRb r).advance 2

/-- ARB (R74): `rb += a` under the ALU result rule (R63). -/
def execArb (m1 : Mode) (s : State) : Host.Outcome State Fault Refusal :=
  finish s (adjustBase m1 s)

/-- HLT (R75): the run state becomes `Halted`; the pc stays at this instruction (decision D12). -/
def execHlt (s : State) : Host.Outcome State Fault Refusal :=
  .next (s.setRunState .halted)

end Sys2Proof.Machine
end

