-- ==== Sys2Proof/Machine/Comparison.lean ====
section
/-! DEFINITION. LT and EQ (43_compare.md R72, R73). No overflow is possible. -/

namespace Sys2Proof.Machine

/-- LT (R72): `mem[c] = 1 if a < b else 0`, a signed comparison (R8). -/
def execLt (m1 m2 m3 : Mode) (s : State) : Host.Outcome State Fault Refusal :=
  finish s (computeAndStore m1 m2 m3 (fun _ a b => .ok (truthWord (decide (a < b)))) s)

/-- EQ (R73): `mem[c] = 1 if a == b else 0`. -/
def execEq (m1 m2 m3 : Mode) (s : State) : Host.Outcome State Fault Refusal :=
  finish s (computeAndStore m1 m2 m3 (fun _ a b => .ok (truthWord (decide (a = b)))) s)

end Sys2Proof.Machine
end

