-- ==== Sys2Proof/Machine/InputOutput.lean ====
section
/-! DEFINITION. IN and OUT (41_io.md R67, R68). -/

namespace Sys2Proof.Machine

/-- IN with a value at the head of the queue (R67): resolve the target, take the value, store it, advance by 2. -/
def inputValue (m1 : Mode) (v : Word) (rest : List Word) (s : State) : Except Raise State := do
  let (a, s1) ← writeAddr .first m1 s
  return (memWrite a v (s1.setIq rest)).advance 2

/-- IN (R67). With an empty input queue it suspends: the run state becomes `AwaitingInput` and nothing else changes;
the parameter is not even fetched (decision D11). -/
def execInp (m1 : Mode) (s : State) : Host.Outcome State Fault Refusal :=
  match s.iq with
  | [] => .next (s.setRunState .awaitingInput)
  | v :: rest => finish s (inputValue m1 v rest s)

/-- The pseudocode of OUT (R68). -/
def outputValue (m1 : Mode) (s : State) : Except Raise State := do
  let (a, s1) ← readParam .first m1 s
  return (s1.pushOutput a).advance 2

/-- OUT (R68): `push_back(output, a)`. -/
def execOut (m1 : Mode) (s : State) : Host.Outcome State Fault Refusal :=
  finish s (outputValue m1 s)

end Sys2Proof.Machine
end

