-- ==== Sys2Proof/Machine/Jumps.lean ====
section
/-! DEFINITION. JT and JF (42_jumps.md R69 to R71). -/

namespace Sys2Proof.Machine

/-- JT (R69): "if `a != 0` then `pc = b` else fallthrough". -/
def execJt (m1 m2 : Mode) (s : State) : Host.Outcome State Fault Refusal :=
  finish s (conditionalJump m1 m2 (fun a => decide (a ≠ 0)) s)

/-- JF (R70): "if `a == 0` then `pc = b` else fallthrough". -/
def execJf (m1 m2 : Mode) (s : State) : Host.Outcome State Fault Refusal :=
  finish s (conditionalJump m1 m2 (fun a => decide (a = 0)) s)

end Sys2Proof.Machine
end

