-- ==== Sys2Proof/Machine/HostInterface.lean ====
section
/-! DEFINITION. The host commands (70_reset_and_hazards.md R104 to R111, 60_exceptions.md R87, R91): each is one
atomic transition (00_scope.md R10). An accepted command gives the host exactly one reply; a refused command changes
no state and returns no result, and the model gives it no meaning (R104). -/

namespace Sys2Proof.Machine

/-- R105, R106: an image is non-empty and its length does not exceed `MEM_LIMIT`. -/
def legalImage (cfg : Config) (image : List Word) : Bool :=
  decide (image ≠ []) && decide (image.length ≤ cfg.memLimit)

/-- The load state (R26): the memory a copy of the image, pc 0, rb 0, `Running`, both queues empty, busy 0, steps 0,
no fault record. The parameters and the host's side of the interface stay. -/
def loadState (image : List Word) (s : State) : State :=
  { s with
    mem := Memory.ofImage image
    pc := 0#64
    rb := 0#64
    state := .running
    iq := []
    oq := []
    busy := false
    steps := 0
    fault := none }

/-- `from_program(image)` as the maker of a fresh instance (R105): its load state, with no host command waiting. -/
def newInstance (cfg : Config) (image : List Word) : State :=
  loadState image { State.reset with cfg := cfg }

/-- `from_program(image)` on the place of an instance the host discards (R87, R105). -/
def commandFromProgram (image : List Word) (s : State) : Host.Outcome State Fault Refusal :=
  if legalImage s.cfg image then .next ((loadState image s).reply .ready)
  else .refused .illegalImage

/-- `reset(image)` (R106): the load state, both queues cleared (decision D16). -/
def commandReset (image : List Word) (s : State) : Host.Outcome State Fault Refusal :=
  if legalImage s.cfg image then .next ((loadState image s).reply .done)
  else .refused .illegalImage

/-- `write_input(v)` (R107): "appends `value` to the input queue". -/
def commandWriteInput (v : Word) (s : State) : Host.Outcome State Fault Refusal :=
  .next ((s.pushInput v).reply .done)

/-- `run()` begins (R91): a halted instance answers `Ok` at once and does not change; any other starts the loop. -/
def commandRun (s : State) : Host.Outcome State Fault Refusal :=
  match s.state with
  | .halted => .next (s.reply .ok)
  | .running => .next (((s.setRunState .running).setBusy true).setSteps 0)
  | .awaitingInput => .next (((s.setRunState .running).setBusy true).setSteps 0)
  | .faulted => .refused .instanceFaulted

/-- `read_output()` (R109): removes and returns the oldest output, or answers empty and changes nothing. -/
def commandReadOutput (s : State) : Host.Outcome State Fault Refusal :=
  match s.oq with
  | [] => .next (s.reply .empty)
  | v :: rest => .next ((s.setOq rest).reply (.value v))

/-- `halted()` (R17, R110). -/
def commandHalted (s : State) : Host.Outcome State Fault Refusal :=
  .next (s.reply (.flag (decide (s.state = .halted))))

/-- `peek_memory()` (R111). -/
def commandPeekMemory (s : State) : Host.Outcome State Fault Refusal :=
  .next (s.reply (.memory s.mem.toImage))

/-- The one command that does not act on the instance that stands, but on its place (R105). -/
def Command.makesInstance : Command → Bool
  | .fromProgram _ => true
  | .reset _ => false
  | .writeInput _ => false
  | .run => false
  | .readOutput => false
  | .halted => false
  | .peekMemory => false

/-- One host command on an instance. None is accepted while `busy` is 1 (R20, U14), and a faulted instance accepts
none: it can only be discarded for a new one (R87). -/
def hostCommand (c : Command) (s : State) : Host.Outcome State Fault Refusal :=
  if s.busy then .refused .commandWhileBusy
  else if s.state = .faulted ∧ c.makesInstance = false then .refused .instanceFaulted
  else
    match c with
    | .fromProgram image => commandFromProgram image s
    | .reset image => commandReset image s
    | .writeInput v => commandWriteInput v s
    | .run => commandRun s
    | .readOutput => commandReadOutput s
    | .halted => commandHalted s
    | .peekMemory => commandPeekMemory s

end Sys2Proof.Machine
end

