-- ==== Sys2Proof/Machine/RunLoop.lean ====
section
/-! DEFINITION. The engine's step (30_encoding.md R60) and the run loop around it (60_exceptions.md R86, R91, R92).
One step of the machine is one transition: a host command while the engine is idle, or one pass of the run loop, that
is one instruction, while it is busy (00_scope.md R10; log entries 11 and 12). -/

namespace Sys2Proof.Machine

/-- The instruction fetch, `MemRead(pc, 1)` (R60). No parameter causes its fault (R85). -/
def fetchWord (s : State) : Except Raise (Word × State) := memRead none (s.pc.toNat : Int) s

/-- The end of one pass of the loop (R91): a halt or a suspension ends the `run` with `Ok`; a fault has ended it
(R86); any other instruction counts as a completed step, whatever the budget (log entry 9). -/
def loopTail (t : State) : State :=
  match t.state with
  | .running => t.setSteps (t.steps + 1)
  | .awaitingInput => (t.setBusy false).reply .ok
  | .halted => (t.setBusy false).reply .ok
  | .faulted => t

/-- The loop's tail after an instruction. -/
def afterInstruction (o : Host.Outcome State Fault Refusal) : Host.Outcome State Fault Refusal :=
  match o with
  | .next t => .next (loopTail t)
  | .fault r => .fault r
  | .refused r => .refused r

/-- `InvalidOpcode(word = w)` (R48, R77). -/
def invalidOpcode (w : Word) : Raise := ⟨.invalidOpcode, none, w.toInt⟩

/-- `Step()` (R60) with the loop's tail: fetch, decode, execute. -/
def fetchAndExecute (s : State) : Host.Outcome State Fault Refusal :=
  match fetchWord s with
  | .error r => .next (takeFault none r s)
  | .ok (w, s1) =>
    match decode w with
    | .error _ => .next (takeFault (some w) (invalidOpcode w) s1)
    | .ok i => afterInstruction (exec i s1)

/-- The step budget is spent (R92). -/
def budgetSpent (s : State) : Bool := decide (s.cfg.stepBudget = some s.steps)

/-- One pass of the run loop (R91): the budget check precedes the fetch (R88). -/
def loopPass (s : State) : Host.Outcome State Fault Refusal :=
  if budgetSpent s then .next (takeFault none ⟨.stepLimitExceeded, none, (s.steps : Int)⟩ s)
  else fetchAndExecute s

/-- The idle engine: the host's next command, or nothing to do (R103, U15). -/
def idleStep (s : State) : Host.Outcome State Fault Refusal :=
  match s.commands with
  | [] => .fault .idle
  | c :: rest => hostCommand c { s with commands := rest }

/-- One transition of the machine. The engine steps only when `state = Running` and `busy = 1` (R60). -/
def engineStep (s : State) : Host.Outcome State Fault Refusal :=
  if s.busy then
    if s.state = .running then loopPass s else .fault .busyNotRunning
  else idleStep s

/-- An instance inside a `run` that is about to fetch at its pc: `Running`, busy, no step counted, no fault record
(what `commandRun` leaves). -/
def beginRun (s : State) : State :=
  { s with state := .running, busy := true, steps := 0, fault := none }

/-- Places a table word's four cells (the longest instruction, R46) from the pc on, inside a `run` that has just
begun. -/
def placeTableWord (s : State) (nbits w : Nat) : State :=
  (beginRun s).setMem
    (storeCells s.cfg.memLimit s.pc.toNat
      [tableCell nbits w 0, tableCell nbits w 1, tableCell nbits w 2, tableCell nbits w 3] s.mem)

end Sys2Proof.Machine
end

