-- ==== Sys2Proof/Machine/Step.lean ====
section
/-! DEFINITION. The machine's step, and the placing of a table word where the next step fetches. -/

namespace Sys2Proof.Machine

/-- One transition of the machine: Machine/RunLoop.lean. -/
def step (s : State) : Host.Outcome State Fault Refusal := engineStep s

/-- `s` with the instruction of a table word stored at its pc, and a `run` begun, so that the very next step runs it
(log entry 6). -/
def State.withFetchWord (s : State) (nbits w : Nat) : State := placeTableWord s nbits w

end Sys2Proof.Machine
end

