-- ==== Sys2Proof/Machine/Instances.lean ====
section
/-! DEFINITION. Several engine instances on one host (60_exceptions.md R100): each is a `State` of its own, and one
transition of the whole is one transition of one instance (log entry 10). -/

namespace Sys2Proof.Machine

/-- The instances the host holds, in the order of their making. -/
abbrev Instances := List State

/-- `from_program(image)` as the making of one more instance (R105). -/
def createInstance (cfg : Config) (image : List Word) (sys : Instances) : Host.Outcome Instances Fault Refusal :=
  if legalImage cfg image then .next (sys ++ [newInstance cfg image]) else .refused .illegalImage

/-- One transition of instance `k`, the interleaving being the host's choice (R100). -/
def stepInstance (k : Nat) (sys : Instances) : Host.Outcome Instances Fault Refusal :=
  match sys[k]? with
  | none => .refused .noSuchInstance
  | some s =>
    match step s with
    | .next t => .next (sys.set k t)
    | .fault r => .fault r
    | .refused r => .refused r

/-- The host gives instance `k` one more command to take, after those already waiting. -/
def issueCommand (k : Nat) (c : Command) (sys : Instances) : Host.Outcome Instances Fault Refusal :=
  match sys[k]? with
  | none => .refused .noSuchInstance
  | some s => .next (sys.set k { s with commands := s.commands ++ [c] })

end Sys2Proof.Machine
end

