-- ==== Sys2Proof/Machine/Loader.lean ====
section
/-! DEFINITION. `parse_program(text)`, the host-side program loader (70_reset_and_hazards.md R112, R113; decision
D23). It is outside the engine and part of no step (00_scope.md R4 (a)); it makes the images the commands take
(log entry 16). -/

namespace Sys2Proof.Machine

/-- Space, tab, carriage return, line feed (D23). -/
def isBlank (c : Char) : Bool :=
  decide (c = ' ') || decide (c = '\t') || decide (c = '\r') || decide (c = '\n')

/-- "splits on commas": the pieces in text order, one more than there are commas. -/
def splitCommas : List Char → List (List Char)
  | [] => [[]]
  | c :: rest =>
    if c = ',' then [] :: splitCommas rest
    else
      match splitCommas rest with
      | [] => [[c]]
      | piece :: pieces => (c :: piece) :: pieces

/-- "trims whitespace/newlines", at both ends. -/
def trimBlanks (piece : List Char) : List Char :=
  ((piece.dropWhile isBlank).reverse.dropWhile isBlank).reverse

/-- The number a run of decimal digits continues; none at any other character. -/
def digitsValue : Nat → List Char → Option Nat
  | acc, [] => some acc
  | acc, c :: rest =>
    if 48 ≤ c.toNat ∧ c.toNat ≤ 57 then digitsValue (10 * acc + (c.toNat - 48)) rest else none

/-- One or more decimal digits. -/
def parseDigits : List Char → Option Nat
  | [] => none
  | c :: rest => digitsValue 0 (c :: rest)

/-- An optional sign and one or more decimal digits. -/
def parseSigned : List Char → Option Int
  | '-' :: ds => (parseDigits ds).map (fun n => -(n : Int))
  | '+' :: ds => (parseDigits ds).map (fun n => (n : Int))
  | ds => (parseDigits ds).map (fun n => (n : Int))

/-- A trimmed token whose value lies in `i64`. -/
def parseToken (piece : List Char) : Option Word :=
  match parseSigned (trimBlanks piece) with
  | none => none
  | some v => if inI64 v then some (wrap64 v) else none

/-- All tokens, or none where one is no integer. -/
def parsePieces : List (List Char) → Option (List Word)
  | [] => some []
  | piece :: rest =>
    match parseToken piece, parsePieces rest with
    | some w, some ws => some (w :: ws)
    | _, _ => none

/-- `parse_program(text)`: the image, or `ParseError` (R113). A text without an integer is one blank piece, which is
no token. -/
def parseProgram (text : List Char) : Except FaultKind (List Word) :=
  match parsePieces (splitCommas text) with
  | some image => .ok image
  | none => .error .parseError

end Sys2Proof.Machine
end

