-- ==== Sys2Proof/Safety.lean ====
section
/-! DEFINITION. The terms the statements use: what an instruction's parameters are in a state, read off the state
alone; the first fault an instruction raises, in the order of 60_exceptions.md R88; the accesses of 20_memory.md R36;
and the invariant of the machine. -/

namespace Sys2Proof.Machine

/-! ## The parameters of the instruction at the pc -/

/-- The cell that holds parameter word `i`: `pc + i` (R46). -/
def paramCell (i : ParamIndex) (s : State) : Nat := s.pc.toNat + i.toNat

/-- Parameter word `i`, `M[pc + i]` (R46, R52). -/
def paramWord (i : ParamIndex) (s : State) : Word := s.mem.read (paramCell i s)

/-- The exact address parameter `i` names in mode `m` (R31, R53, R54). -/
def operandAddress (i : ParamIndex) (m : Mode) (s : State) : Int := effectiveAddress m s (paramWord i s)

/-- The value of read parameter `i` in mode `m` (R53): `M[p]`, `p` or `M[rb + p]`. -/
def operandValue (i : ParamIndex) (m : Mode) (s : State) : Word :=
  match m with
  | .immediate => paramWord i s
  | _ => s.mem.read (operandAddress i m s).toNat

/-- The same value as a signed integer (R6). -/
def operandInt (i : ParamIndex) (m : Mode) (s : State) : Int := (operandValue i m s).toInt

/-- The address of write parameter `i` in mode `m` (R54), where it is writable. -/
def writeTarget (i : ParamIndex) (m : Mode) (s : State) : Nat := (operandAddress i m s).toNat

/-- The address lies in the memory: from 0 to `MEM_LIMIT` - 1 (R30, R32). -/
def addressExists (cfg : Config) (a : Int) : Bool := decide (0 ≤ a) && decide (a < (cfg.memLimit : Int))

/-- Read parameter `i` resolves without a fault: its word lies in the memory, its mode is 0, 1 or 2, and in modes 0
and 2 the address it names lies in the memory. -/
def readable (i : ParamIndex) (m : Mode) (s : State) : Bool :=
  decide (paramCell i s < s.cfg.memLimit) && m.legalRead &&
    (decide (m = .immediate) || addressExists s.cfg (operandAddress i m s))

/-- Write parameter `i` resolves without a fault: its word lies in the memory, its mode is 0 or 2, and the address it
names lies in the memory. -/
def writable (i : ParamIndex) (m : Mode) (s : State) : Bool :=
  decide (paramCell i s < s.cfg.memLimit) && m.legalWrite && addressExists s.cfg (operandAddress i m s)

/-- The result is stored, not raised: it lies in `i64`, or the policy is `Wrap` (R63). -/
def storable (cfg : Config) (r : Int) : Bool := inI64 r || decide (cfg.overflowPolicy = .wrap)

/-! ## The first fault of an instruction (R88) -/

/-- The fault of an address: negative, or at or beyond `MEM_LIMIT` (R32). -/
def accessFault (cfg : Config) (param : Option ParamIndex) (a : Int) : Option Raise :=
  if a < 0 then some ⟨.addressFault, param, a⟩
  else if (cfg.memLimit : Int) ≤ a then some ⟨.memoryExhausted, param, a⟩
  else none

/-- The first fault of read parameter `i`: the fetch of its word, its mode, its address (R88, step 5). -/
def readFault (i : ParamIndex) (m : Mode) (s : State) : Option Raise :=
  if s.cfg.memLimit ≤ paramCell i s then some ⟨.memoryExhausted, some i, (paramCell i s : Int)⟩
  else
    match m with
    | .undefined _ => some ⟨.invalidMode, some i, (m.digit : Int)⟩
    | .immediate => none
    | _ => accessFault s.cfg (some i) (operandAddress i m s)

/-- The first fault of write parameter `i` (R88, step 5). -/
def writeFault (i : ParamIndex) (m : Mode) (s : State) : Option Raise :=
  if s.cfg.memLimit ≤ paramCell i s then some ⟨.memoryExhausted, some i, (paramCell i s : Int)⟩
  else
    match m with
    | .undefined _ => some ⟨.invalidMode, some i, (m.digit : Int)⟩
    | .immediate => some ⟨.invalidWriteTarget, some i, (paramWord i s).toInt⟩
    | _ => accessFault s.cfg (some i) (operandAddress i m s)

/-- The fault of an arithmetic result (R63, R81). -/
def overflowFault (cfg : Config) (r : Int) : Option Raise :=
  if storable cfg r then none else some ⟨.arithmeticOverflow, none, r⟩

/-- The fault of a jump: taken to a negative target (R69, R70). -/
def jumpFault (taken : Bool) (target : Int) : Option Raise :=
  if taken && decide (target < 0) then some ⟨.addressFault, none, target⟩ else none

/-- The two read parameters of opcodes 1, 2, 5, 6, 7 and 8, in index order. -/
def twoReadsFault (m1 m2 : Mode) (s : State) : Option Raise :=
  (readFault .first m1 s).or (readFault .second m2 s)

/-- The fault instruction `i` raises after its opcode check, if any: the first in the order of R88, steps 4 to 7. -/
def firstFault (i : Instr) (s : State) : Option Raise :=
  match i with
  | .add m1 m2 m3 => ((twoReadsFault m1 m2 s).or (writeFault .third m3 s)).or
      (overflowFault s.cfg (operandInt .first m1 s + operandInt .second m2 s))
  | .mul m1 m2 m3 => ((twoReadsFault m1 m2 s).or (writeFault .third m3 s)).or
      (overflowFault s.cfg (operandInt .first m1 s * operandInt .second m2 s))
  | .inp m1 => if s.iq = [] then none else writeFault .first m1 s
  | .out m1 => readFault .first m1 s
  | .jt m1 m2 => (twoReadsFault m1 m2 s).or
      (jumpFault (decide (operandInt .first m1 s ≠ 0)) (operandInt .second m2 s))
  | .jf m1 m2 => (twoReadsFault m1 m2 s).or
      (jumpFault (decide (operandInt .first m1 s = 0)) (operandInt .second m2 s))
  | .lt m1 m2 m3 => (twoReadsFault m1 m2 s).or (writeFault .third m3 s)
  | .eq m1 m2 m3 => (twoReadsFault m1 m2 s).or (writeFault .third m3 s)
  | .arb m1 => (readFault .first m1 s).or (overflowFault s.cfg (s.rb.toInt + operandInt .first m1 s))
  | .hlt => none

/-- The exact result of an arithmetic instruction, before the ALU result rule (R63, R64, R65, R74). -/
def exactResult (i : Instr) (s : State) : Option Int :=
  match i with
  | .add m1 m2 _ => some (operandInt .first m1 s + operandInt .second m2 s)
  | .mul m1 m2 _ => some (operandInt .first m1 s * operandInt .second m2 s)
  | .arb m1 => some (s.rb.toInt + operandInt .first m1 s)
  | .inp _ => none
  | .out _ => none
  | .jt _ _ => none
  | .jf _ _ => none
  | .lt _ _ _ => none
  | .eq _ _ _ => none
  | .hlt => none

/-- The fault one pass of the run loop raises, if any, with the word its record carries: R88, steps 1 to 7. -/
def passFault (s : State) : Option (Option Word × Raise) :=
  if budgetSpent s then some (none, ⟨.stepLimitExceeded, none, (s.steps : Int)⟩)
  else if s.cfg.memLimit ≤ s.pc.toNat then some (none, ⟨.memoryExhausted, none, (s.pc.toNat : Int)⟩)
  else
    let w := s.mem.read s.pc.toNat
    match decode w with
    | .error _ => some (some w, ⟨.invalidOpcode, none, w.toInt⟩)
    | .ok i => (firstFault i s).map (fun r => (some w, r))

/-- The row of R76's table a fault record of the engine meets, for a fault raised in state `s`: its code, whether a
parameter and a word are named, and what the value is. `ParseError` is never raised by the engine. -/
def faultRow (s : State) (r : FaultRecord) : Prop :=
  match r.kind with
  | .invalidOpcode => r.code = 1 ∧ r.param = none ∧ ∃ w, r.word = some w ∧ r.value = some w.toInt
  | .invalidWriteTarget => r.code = 2 ∧ r.word.isSome ∧
      ∃ i, r.param = some i ∧ r.value = some (paramWord i s).toInt
  | .addressFault => r.code = 3 ∧ r.word.isSome ∧ ∃ v, r.value = some v ∧ v < 0
  | .invalidMode => r.code = 4 ∧ r.word.isSome ∧ r.param.isSome ∧ ∃ v, r.value = some v ∧ 3 ≤ v ∧ v ≤ 9
  | .arithmeticOverflow => r.code = 5 ∧ r.word.isSome ∧ r.param = none ∧ s.cfg.overflowPolicy = .fault ∧
      ∃ v, r.value = some v ∧ inI64 v = false
  | .memoryExhausted => r.code = 6 ∧ (r.word = none → r.param = none) ∧
      ∃ v, r.value = some v ∧ (s.cfg.memLimit : Int) ≤ v
  | .stepLimitExceeded => r.code = 7 ∧ r.word = none ∧ r.param = none ∧
      ∃ n : Nat, s.cfg.stepBudget = some n ∧ r.value = some (n : Int)
  | .parseError => False

/-! ## The accesses of an instruction (R36) -/

/-- The cells read in resolving read parameter `i`: its word, then in modes 0 and 2 the operand. -/
def readCells (i : ParamIndex) (m : Mode) (s : State) : List Nat :=
  match m with
  | .immediate => [paramCell i s]
  | _ => [paramCell i s, (operandAddress i m s).toNat]

/-- The cells a completing instruction accesses after its own word, in the order of R36, the written cell last. -/
def accessedCells (i : Instr) (s : State) : List Nat :=
  match i with
  | .add m1 m2 m3 => readCells .first m1 s ++ readCells .second m2 s ++ [paramCell .third s, writeTarget .third m3 s]
  | .mul m1 m2 m3 => readCells .first m1 s ++ readCells .second m2 s ++ [paramCell .third s, writeTarget .third m3 s]
  | .inp m1 => if s.iq = [] then [] else [paramCell .first s, writeTarget .first m1 s]
  | .out m1 => readCells .first m1 s
  | .jt m1 m2 => readCells .first m1 s ++ readCells .second m2 s
  | .jf m1 m2 => readCells .first m1 s ++ readCells .second m2 s
  | .lt m1 m2 m3 => readCells .first m1 s ++ readCells .second m2 s ++ [paramCell .third s, writeTarget .third m3 s]
  | .eq m1 m2 m3 => readCells .first m1 s ++ readCells .second m2 s ++ [paramCell .third s, writeTarget .third m3 s]
  | .arb m1 => readCells .first m1 s
  | .hlt => []

/-- The cell an instruction writes and the word it writes there, where it completes (R36, last column). -/
def storedWord (i : Instr) (s : State) : Option (Nat × Word) :=
  match i with
  | .add m1 m2 m3 => some (writeTarget .third m3 s, wrap64 (operandInt .first m1 s + operandInt .second m2 s))
  | .mul m1 m2 m3 => some (writeTarget .third m3 s, wrap64 (operandInt .first m1 s * operandInt .second m2 s))
  | .inp m1 => s.iq.head?.map (fun v => (writeTarget .first m1 s, v))
  | .lt m1 m2 m3 => some (writeTarget .third m3 s,
      if operandInt .first m1 s < operandInt .second m2 s then 1#64 else 0#64)
  | .eq m1 m2 m3 => some (writeTarget .third m3 s,
      if operandInt .first m1 s = operandInt .second m2 s then 1#64 else 0#64)
  | .out _ => none
  | .jt _ _ => none
  | .jf _ _ => none
  | .arb _ => none
  | .hlt => none

/-! ## The machine as a whole -/

/-- What no instruction changes without faulting: the parameters, `busy`, `steps`, the fault record, the host's side
of the interface and the counter of free values. -/
def keepsMachine (s t : State) : Prop :=
  t.cfg = s.cfg ∧ t.busy = s.busy ∧ t.steps = s.steps ∧ t.fault = s.fault ∧ t.commands = s.commands ∧
    t.replies = s.replies ∧ t.freeDraws = s.freeDraws

/-- Every cell reads as before. -/
def keepsCells (s t : State) : Prop := ∀ a : Nat, t.mem.read a = s.mem.read a

/-- Every cell but `c` reads as before. -/
def keepsCellsBut (c : Nat) (s t : State) : Prop := ∀ a : Nat, a ≠ c → t.mem.read a = s.mem.read a

/-- The load state of R26 for an image, but for the parameters and the host's side of the interface. -/
def isLoadState (image : List Word) (t : State) : Prop :=
  (∀ a : Nat, t.mem.read a = image.getD a 0#64) ∧ t.mem.extent = image.length ∧ t.pc = 0#64 ∧ t.rb = 0#64 ∧
    t.state = .running ∧ t.iq = [] ∧ t.oq = [] ∧ t.busy = false ∧ t.steps = 0 ∧ t.fault = none

/-- One Memory access (R33, R34): a read of a cell (`none`) or a write of a value to it. -/
abbrev CellAccess := Nat × Option Word

/-- The access made on the Memory. -/
def CellAccess.onMemory (m : Memory) (c : CellAccess) : Memory :=
  match c.2 with
  | none => m.touch c.1
  | some v => m.write c.1 v

/-- The access made on an unbounded array of cells (R35). -/
def CellAccess.onArray (f : Nat → Word) (c : CellAccess) : Nat → Word :=
  match c.2 with
  | none => f
  | some v => fun a => if a = c.1 then v else f a

/-- The engine is about to make a pass of the run loop that reaches the fetch: `Running`, busy, the budget not spent
(R60, R91, R92). -/
def fetching (s : State) : Bool := s.busy && decide (s.state = .running) && !budgetSpent s

/-- A run of the machine is safe while its instance has not faulted: only then are its memory, registers and queues
specified (R86). -/
def State.safe (s : State) : Bool := decide (s.state ≠ .faulted)

/-- The invariant of the machine. -/
structure State.Inv (s : State) : Prop where
  /-- The parameters are values R5 allows. -/
  cfg_legal : s.cfg.legal = true
  /-- The memory is in canonical form, and no cell at or beyond the extent is listed. -/
  mem_wf : s.mem.wf = true
  /-- 1 <= `L` <= `MEM_LIMIT` (R23), where the memory is specified. -/
  extent_pos : s.safe = true → 1 ≤ s.mem.extent
  extent_le : s.safe = true → s.mem.extent ≤ s.cfg.memLimit
  /-- `pc` is at most 2^63 (R14), where it is specified. -/
  pc_le : s.safe = true → s.pc.toNat ≤ 2 ^ 63
  /-- The engine executes only in `Running` (R60, R91). -/
  busy_running : s.busy = true → s.state = .running
  /-- A fault record is kept exactly in `Faulted` (R26, R86). -/
  fault_iff : s.fault.isSome = true ↔ s.state = .faulted
  /-- `steps` is at most `STEP_BUDGET` (R19). -/
  steps_le : ∀ n, s.cfg.stepBudget = some n → s.steps ≤ n

/-- Two states the host cannot tell apart: equal but for the counter of free values and, in a faulted instance, the
unspecified values (R86, R87). -/
structure SameToHost (s t : State) : Prop where
  cfg : s.cfg = t.cfg
  state : s.state = t.state
  busy : s.busy = t.busy
  steps : s.steps = t.steps
  fault : s.fault = t.fault
  commands : s.commands = t.commands
  replies : s.replies = t.replies
  mem : s.safe = true → s.mem = t.mem
  pc : s.safe = true → s.pc = t.pc
  rb : s.safe = true → s.rb = t.rb
  iq : s.safe = true → s.iq = t.iq
  oq : s.safe = true → s.oq = t.oq

/-- `k` steps of the machine, ending at the first that answers no next state. -/
def runSteps : Nat → State → Host.Outcome State Fault Refusal
  | 0, s => .next s
  | k + 1, s =>
    match step s with
    | .next t => runSteps k t
    | .fault r => .fault r
    | .refused r => .refused r

/-- Two outcomes the host cannot tell apart. -/
def SameOutcome (o p : Host.Outcome State Fault Refusal) : Prop :=
  match o, p with
  | .next s, .next t => SameToHost s t
  | .fault a, .fault b => a = b
  | .refused a, .refused b => a = b
  | _, _ => False

end Sys2Proof.Machine
end

