-- ==== Sys2Proof/Certificates/Slice0/Obligations.lean ====
section
/-! DEFINITION. The statements for the provers. They are about the machine, in every state and for every value of its
parameters; none is about a program. The terms they use are in Sys2Proof/Safety.lean. -/

open Sys2Proof Sys2Proof.Machine

/-! ## Encoding -/

/-- Nineteen words decode as the spec says: seventeen are of the decoder vectors (95_test_vectors.md V80 to V100), and
106 and 1008, the two with opcodes 6 and 8, which that table lacks, are read by hand from the digit fields of R47. -/
def Obligations.SampleWordsDecodeAsListed : Prop :=
  decode 1#64 = .ok (.add .position .position .position) ∧
  decode 21101#64 = .ok (.add .immediate .immediate .relative) ∧
  decode 20001#64 = .ok (.add .position .position .relative) ∧
  decode 1002#64 = .ok (.mul .position .immediate .position) ∧
  decode 203#64 = .ok (.inp .relative) ∧
  decode 103#64 = .ok (.inp .immediate) ∧
  decode 11104#64 = .ok (.out .immediate) ∧
  decode 2105#64 = .ok (.jt .immediate .relative) ∧
  decode 106#64 = .ok (.jf .immediate .position) ∧
  decode 22207#64 = .ok (.lt .relative .relative .relative) ∧
  decode 1008#64 = .ok (.eq .position .immediate .position) ∧
  decode 209#64 = .ok (.arb .relative) ∧
  decode 99#64 = .ok .hlt ∧
  decode 10099#64 = .ok .hlt ∧
  decode 30001#64 = .ok (.add .position .position (.undefined 0)) ∧
  decode 0#64 = .error (.unknownOpcode 0) ∧
  decode 98#64 = .error (.unknownOpcode 98) ∧
  decode 100#64 = .error (.unknownOpcode 0) ∧
  decode (BitVec.ofInt 64 (-99)) = .error .negativeWord

/-- The canonical word of every instruction, with every mode digit at every value 0 to 9, decodes to that
instruction (R59). -/
def Obligations.DecodeOfEncodeIsTheInstruction : Prop :=
  ∀ i : Instr, decode (encode i) = .ok i

/-- A word decodes to an instruction exactly when it is not negative and its lowest 2 + arity decimal digits are
those of the canonical word: the higher digits do not matter, and all the lower ones do (R48 to R50, R59; the spec
marks R50 and R59 as derived). -/
def Obligations.DecodeReadsExactlyTheUsedDigits : Prop :=
  ∀ (w : Word) (i : Instr),
    decode w = .ok i ↔ (0 ≤ w.toInt ∧ w.toNat % 10 ^ (2 + i.arity) = i.canonical)

/-- R77: a fetched word that is negative or whose `w mod 100` is none of 1 to 9 and 99 raises `InvalidOpcode`, with
the record R76 and R85 give; a fetch beyond the extent reads 0 and raises it. -/
def Obligations.WordsWithoutOpcodeRaiseInvalidOpcode : Prop :=
  ∀ s : State, fetching s = true → s.pc.toNat < s.cfg.memLimit →
    (((s.mem.read s.pc.toNat).toInt < 0 ∨
        (s.mem.read s.pc.toNat).toNat % 100 ∉ [1, 2, 3, 4, 5, 6, 7, 8, 9, 99]) →
      ∃ t, step s = .next t ∧ t.state = .faulted ∧
        t.fault = some ⟨.invalidOpcode, 1, s.pc, some (s.mem.read s.pc.toNat), none,
          some (s.mem.read s.pc.toNat).toInt⟩) ∧
    (s.mem.wf = true → s.mem.extent ≤ s.pc.toNat →
      ∃ t, step s = .next t ∧ t.state = .faulted ∧
        t.fault = some ⟨.invalidOpcode, 1, s.pc, some 0#64, none, some 0⟩)

/-! ## The step -/

/-- When the cell at the pc decodes to an instruction, one step is that instruction's meaning, after the zero-fill
the fetch may make (R60), and around it only the loop's tail (R91): a completed instruction is counted, a suspension
or a halt ends the `run` with `Ok`, a fault has already ended it. -/
def Obligations.StepRunsTheDecodedInstruction : Prop :=
  ∀ (s : State) (i : Instr), fetching s = true → s.pc.toNat < s.cfg.memLimit →
    decode (s.mem.read s.pc.toNat) = .ok i →
    ∃ t, exec i { s with mem := s.mem.touch s.pc.toNat } = .next t ∧
      step s = .next
        (match t.state with
         | .running => { t with steps := t.steps + 1 }
         | .awaitingInput => { t with busy := false, replies := t.replies ++ [.ok] }
         | .halted => { t with busy := false, replies := t.replies ++ [.ok] }
         | .faulted => t)

/-- `withFetchWord` places a table word so that the very next step runs it: the model's own means of loading one
instruction (log entry 6). -/
def Obligations.PlacedWordIsTheNextInstruction : Prop :=
  ∀ (s : State) (nbits w : Nat) (i : Instr), s.cfg.legal = true → s.mem.wf = true →
    s.pc.toNat < s.cfg.memLimit → decodeTableWord nbits w = some i →
    step (s.withFetchWord nbits w) = afterInstruction (exec i (s.withFetchWord nbits w))

/-! ## What each instruction does -/

/-- ADD (R64): with both operands readable and the target writable, and a sum that is stored rather than raised, the
exact sum goes into the target cell, the pc advances by 4, the accessed cells exist, and nothing else changes. -/
def Obligations.AddStoresTheSum : Prop :=
  ∀ (m1 m2 m3 : Mode) (s : State), readable .first m1 s = true → readable .second m2 s = true →
    writable .third m3 s = true → storable s.cfg (operandInt .first m1 s + operandInt .second m2 s) = true →
    ∃ w : Word,
      (inI64 (operandInt .first m1 s + operandInt .second m2 s) = true →
        w.toInt = operandInt .first m1 s + operandInt .second m2 s) ∧
      (2 ^ 64 : Int) ∣ w.toInt - (operandInt .first m1 s + operandInt .second m2 s) ∧
      exec (.add m1 m2 m3) s = .next
        { s with
          pc := s.pc + 4#64
          mem := (s.mem.touchAll (readCells .first m1 s ++ readCells .second m2 s ++ [paramCell .third s])).write
            (writeTarget .third m3 s) w }

/-- MUL (R65): as ADD, with the exact signed product. -/
def Obligations.MulStoresTheProduct : Prop :=
  ∀ (m1 m2 m3 : Mode) (s : State), readable .first m1 s = true → readable .second m2 s = true →
    writable .third m3 s = true → storable s.cfg (operandInt .first m1 s * operandInt .second m2 s) = true →
    ∃ w : Word,
      (inI64 (operandInt .first m1 s * operandInt .second m2 s) = true →
        w.toInt = operandInt .first m1 s * operandInt .second m2 s) ∧
      (2 ^ 64 : Int) ∣ w.toInt - operandInt .first m1 s * operandInt .second m2 s ∧
      exec (.mul m1 m2 m3) s = .next
        { s with
          pc := s.pc + 4#64
          mem := (s.mem.touchAll (readCells .first m1 s ++ readCells .second m2 s ++ [paramCell .third s])).write
            (writeTarget .third m3 s) w }

/-- LT (R72): 1 if a < b, as signed integers, else 0. -/
def Obligations.LtStoresTheSignedComparison : Prop :=
  ∀ (m1 m2 m3 : Mode) (s : State), readable .first m1 s = true → readable .second m2 s = true →
    writable .third m3 s = true →
    exec (.lt m1 m2 m3) s = .next
      { s with
        pc := s.pc + 4#64
        mem := (s.mem.touchAll (readCells .first m1 s ++ readCells .second m2 s ++ [paramCell .third s])).write
          (writeTarget .third m3 s)
          (if operandInt .first m1 s < operandInt .second m2 s then 1#64 else 0#64) }

/-- EQ (R73): 1 if a = b, else 0. -/
def Obligations.EqStoresTheEquality : Prop :=
  ∀ (m1 m2 m3 : Mode) (s : State), readable .first m1 s = true → readable .second m2 s = true →
    writable .third m3 s = true →
    exec (.eq m1 m2 m3) s = .next
      { s with
        pc := s.pc + 4#64
        mem := (s.mem.touchAll (readCells .first m1 s ++ readCells .second m2 s ++ [paramCell .third s])).write
          (writeTarget .third m3 s)
          (if operandValue .first m1 s = operandValue .second m2 s then 1#64 else 0#64) }

/-- IN with a value queued (R67): the oldest value goes into the target cell and out of the queue, the pc advances
by 2, and nothing else changes. -/
def Obligations.InputStoresTheOldestValue : Prop :=
  ∀ (m1 : Mode) (s : State) (v : Word) (rest : List Word), s.iq = v :: rest → writable .first m1 s = true →
    exec (.inp m1) s = .next
      { s with
        pc := s.pc + 2#64
        iq := rest
        mem := (s.mem.touchAll [paramCell .first s]).write (writeTarget .first m1 s) v }

/-- IN with an empty queue (R67, R90): it suspends in every mode, legal or not, and nothing but the run state
changes. -/
def Obligations.InputSuspendsOnAnEmptyQueue : Prop :=
  ∀ (m1 : Mode) (s : State), s.iq = [] → exec (.inp m1) s = .next { s with state := .awaitingInput }

/-- OUT (R68): the operand is appended to the output queue and the pc advances by 2. -/
def Obligations.OutputAppendsTheOperand : Prop :=
  ∀ (m1 : Mode) (s : State), readable .first m1 s = true →
    exec (.out m1) s = .next
      { s with
        pc := s.pc + 2#64
        oq := s.oq ++ [operandValue .first m1 s]
        mem := s.mem.touchAll (readCells .first m1 s) }

/-- JT (R69): with both parameters readable, and a target that is not negative where the jump is taken, the pc
becomes the target when the condition is not 0, and else advances by 3; both parameters are read either way. -/
def Obligations.JumpIfTrueJumpsOnNonZero : Prop :=
  ∀ (m1 m2 : Mode) (s : State), readable .first m1 s = true → readable .second m2 s = true →
    (operandInt .first m1 s ≠ 0 → 0 ≤ operandInt .second m2 s) →
    exec (.jt m1 m2) s = .next
      { s with
        pc := if operandInt .first m1 s ≠ 0 then operandValue .second m2 s else s.pc + 3#64
        mem := s.mem.touchAll (readCells .first m1 s ++ readCells .second m2 s) }

/-- JF (R70): as JT with the condition inverted. -/
def Obligations.JumpIfFalseJumpsOnZero : Prop :=
  ∀ (m1 m2 : Mode) (s : State), readable .first m1 s = true → readable .second m2 s = true →
    (operandInt .first m1 s = 0 → 0 ≤ operandInt .second m2 s) →
    exec (.jf m1 m2) s = .next
      { s with
        pc := if operandInt .first m1 s = 0 then operandValue .second m2 s else s.pc + 3#64
        mem := s.mem.touchAll (readCells .first m1 s ++ readCells .second m2 s) }

/-- ARB (R74): the exact sum of the old `rb` and the operand, which in relative mode is read with the old `rb`. -/
def Obligations.AdjustBaseAddsToRb : Prop :=
  ∀ (m1 : Mode) (s : State), readable .first m1 s = true →
    storable s.cfg (s.rb.toInt + operandInt .first m1 s) = true →
    ∃ w : Word,
      (inI64 (s.rb.toInt + operandInt .first m1 s) = true → w.toInt = s.rb.toInt + operandInt .first m1 s) ∧
      (2 ^ 64 : Int) ∣ w.toInt - (s.rb.toInt + operandInt .first m1 s) ∧
      exec (.arb m1) s = .next
        { s with
          pc := s.pc + 2#64
          rb := w
          mem := s.mem.touchAll (readCells .first m1 s) }

/-- HLT (R75): the run state becomes `Halted`; the pc and all else stay. -/
def Obligations.HaltOnlySetsHalted : Prop :=
  ∀ s : State, exec .hlt s = .next { s with state := .halted }

/-- The ALU result rule (R63) with `wrap64` (R8): in range the exact result; out of range the congruent word under
`Wrap`, and `ArithmeticOverflow` with the exact result under `Fault`. -/
def Obligations.AluResultIsExactOrByPolicy : Prop :=
  ∀ (cfg : Config) (r : Int),
    (inI64 r = true → ∃ w, aluResult cfg r = .ok w ∧ w.toInt = r) ∧
    (inI64 r = false → cfg.overflowPolicy = .wrap →
      ∃ w, aluResult cfg r = .ok w ∧ (2 ^ 64 : Int) ∣ w.toInt - r) ∧
    (inI64 r = false → cfg.overflowPolicy = .fault →
      aluResult cfg r = .error ⟨.arithmeticOverflow, none, r⟩)

/-! ## Frames -/

/-- The frame of the storing forms of opcodes 1, 2, 7 and 8: without a fault, `rb`, both queues, the run state and
the rest of the machine stay, the target resolves, and every cell but the target's reads as before. -/
def Obligations.StoringInstructionsChangeOneCell : Prop :=
  ∀ (m1 m2 m3 : Mode) (i : Instr) (s t : State),
    i ∈ [Instr.add m1 m2 m3, .mul m1 m2 m3, .lt m1 m2 m3, .eq m1 m2 m3] → s.state = .running →
    exec i s = .next t → t.safe = true →
    keepsMachine s t ∧ t.state = .running ∧ t.rb = s.rb ∧ t.iq = s.iq ∧ t.oq = s.oq ∧
      (∃ c s', writeAddr .third m3 s = .ok (c, s')) ∧
      (∀ c s', writeAddr .third m3 s = .ok (c, s') → keepsCellsBut c s t)

/-- The frame of IN: a completing one changes its target cell and takes one value off the input queue; a suspending
one changes nothing but the run state. -/
def Obligations.InputChangesItsTargetOrNothing : Prop :=
  ∀ (m1 : Mode) (s t : State), s.state = .running → exec (.inp m1) s = .next t → t.safe = true →
    keepsMachine s t ∧ t.rb = s.rb ∧ t.oq = s.oq ∧
      (s.iq = [] → t.state = .awaitingInput ∧ t.pc = s.pc ∧ t.iq = [] ∧ t.mem = s.mem) ∧
      (s.iq ≠ [] → t.state = .running ∧ t.iq = s.iq.tail ∧ (∃ c s', writeAddr .first m1 s = .ok (c, s')) ∧
        (∀ c s', writeAddr .first m1 s = .ok (c, s') → keepsCellsBut c s t))

/-- The frame of the instructions that store nothing: every cell reads as before; OUT changes the output queue alone,
ARB `rb` alone, the jumps and HLT neither, and HLT leaves the pc. -/
def Obligations.NonStoringInstructionsKeepEveryCell : Prop :=
  ∀ (m1 m2 : Mode) (s t : State), s.state = .running → t.safe = true →
    (exec (.out m1) s = .next t → keepsMachine s t ∧ keepsCells s t ∧ t.state = .running ∧ t.rb = s.rb ∧
      t.iq = s.iq) ∧
    (exec (.jt m1 m2) s = .next t → keepsMachine s t ∧ keepsCells s t ∧ t.state = .running ∧ t.rb = s.rb ∧
      t.iq = s.iq ∧ t.oq = s.oq) ∧
    (exec (.jf m1 m2) s = .next t → keepsMachine s t ∧ keepsCells s t ∧ t.state = .running ∧ t.rb = s.rb ∧
      t.iq = s.iq ∧ t.oq = s.oq) ∧
    (exec (.arb m1) s = .next t → keepsMachine s t ∧ keepsCells s t ∧ t.state = .running ∧ t.iq = s.iq ∧
      t.oq = s.oq) ∧
    (exec .hlt s = .next t → keepsMachine s t ∧ keepsCells s t ∧ t.mem.extent = s.mem.extent ∧
      t.state = .halted ∧ t.pc = s.pc ∧ t.rb = s.rb ∧ t.iq = s.iq ∧ t.oq = s.oq)

/-! ## Faults -/

/-- R88 (decision D15): one pass of the run loop reports exactly the first fault in the order step budget, fetch,
opcode, the parameters in index order, the operation; with the record of R85; without one it does not fault, and an
IN with an empty queue suspends. -/
def Obligations.PassReportsTheFirstFaultInOrder : Prop :=
  ∀ s : State, s.busy = true → s.state = .running →
    (∀ word r, passFault s = some (word, r) →
      ∃ t, step s = .next t ∧ t.state = .faulted ∧
        t.fault = some ⟨r.kind, r.kind.code, s.pc, word, r.param, some r.value⟩) ∧
    (passFault s = none → ∃ t, step s = .next t ∧ t.state ≠ .faulted ∧ t.fault = s.fault) ∧
    (∀ m1, passFault s = none → decode (s.mem.read s.pc.toNat) = .ok (.inp m1) → s.iq = [] →
      ∃ t, step s = .next t ∧ t.state = .awaitingInput)

/-- Fault entry (R85, R86), whichever fault it is: the run state becomes `Faulted`, `busy` 0, the record is kept and
is the result of the `run`, it names the pc of the instruction and meets its row of R76. Of the unspecified values
nothing is said. That the parameters, `steps` and the host's commands stay is the model's reading (log entry 8). -/
def Obligations.FaultEntryKeepsTheRecordAndEndsTheRun : Prop :=
  ∀ s t : State, s.safe = true → step s = .next t → t.safe = false →
    s.busy = true ∧ t.busy = false ∧ t.cfg = s.cfg ∧ t.steps = s.steps ∧ t.commands = s.commands ∧
      ∃ r : FaultRecord, t.fault = some r ∧ t.replies = s.replies ++ [.faulted r] ∧ r.pc = s.pc ∧ faultRow s r

/-- R78: a write parameter in mode 1 raises `InvalidWriteTarget`, naming the parameter and its word: parameter 3 of
opcodes 1, 2, 7 and 8, parameter 1 of opcode 3. -/
def Obligations.ImmediateWriteTargetFaults : Prop :=
  ∀ (m1 m2 : Mode) (s : State),
    (∀ i ∈ [Instr.add m1 m2 .immediate, .mul m1 m2 .immediate, .lt m1 m2 .immediate, .eq m1 m2 .immediate],
      readable .first m1 s = true → readable .second m2 s = true → paramCell .third s < s.cfg.memLimit →
      exec i s = .next (takeFault (some (s.mem.read s.pc.toNat))
        ⟨.invalidWriteTarget, some .third, (paramWord .third s).toInt⟩ s)) ∧
    (s.iq ≠ [] → paramCell .first s < s.cfg.memLimit →
      exec (.inp .immediate) s = .next (takeFault (some (s.mem.read s.pc.toNat))
        ⟨.invalidWriteTarget, some .first, (paramWord .first s).toInt⟩ s))

/-- R81 (decision D5): `ArithmeticOverflow` arises only under `OVERFLOW_POLICY = Fault`, only from ADD, MUL and ARB,
only when the exact result is outside `i64`, and records that result; under `Wrap` it never arises. -/
def Obligations.OverflowFaultsOnlyUnderTheFaultPolicy : Prop :=
  ∀ (s t : State) (r : FaultRecord), s.safe = true → step s = .next t → t.fault = some r →
    s.fault = none → r.kind = .arithmeticOverflow →
    s.cfg.overflowPolicy = .fault ∧
      ∃ i v, decode (s.mem.read s.pc.toNat) = .ok i ∧ exactResult i s = some v ∧ inI64 v = false ∧
        r.value = some v

/-- R87: a faulted instance refuses every command; a new instance, which the model puts in its place (log entry 4), is
in the load state. -/
def Obligations.FaultedInstanceRefusesEveryCommand : Prop :=
  ∀ (s : State) (rest : List Command), s.busy = false → s.state = .faulted →
    (∀ c, (c = .run ∨ c = .readOutput ∨ c = .halted ∨ c = .peekMemory ∨ (∃ v, c = .writeInput v) ∨
        (∃ image, c = .reset image)) →
      s.commands = c :: rest → step s = .refused .instanceFaulted) ∧
    (∀ image, legalImage s.cfg image = true → s.commands = .fromProgram image :: rest →
      ∃ t, step s = .next t ∧ isLoadState image t)

/-! ## Rules of the whole machine -/

/-- `rb` is "written only by opcode 9" (R15): a step that leaves the instance unfaulted and changes `rb` runs an ARB,
or loads an image, by `reset` (R19) or by `from_program`, which takes the instance's place (log entry 4). -/
def Obligations.OnlyAdjustBaseWritesRb : Prop :=
  ∀ s t : State, step s = .next t → t.safe = true → t.rb ≠ s.rb →
    (s.busy = true ∧ ∃ m1, decode (s.mem.read s.pc.toNat) = .ok (.arb m1)) ∨
    (s.busy = false ∧ ∃ image rest, s.commands = .reset image :: rest ∨ s.commands = .fromProgram image :: rest)

/-- R14, R71: where the pc stands after an instruction that does not fault, by the instruction: HLT and a suspending
IN leave it, a taken jump puts it at the target, and everything else moves it on by the instruction's length. -/
def Obligations.OnlyTakenJumpsLeaveTheSequence : Prop :=
  ∀ (s t : State) (i : Instr), fetching s = true → s.pc.toNat < s.cfg.memLimit →
    decode (s.mem.read s.pc.toNat) = .ok i → step s = .next t → t.safe = true →
    (i = .hlt → t.pc = s.pc) ∧
    (∀ m1, i = .inp m1 → t.pc = if s.iq = [] then s.pc else s.pc + BitVec.ofNat 64 i.length) ∧
    (∀ m1 m2, i = .jt m1 m2 →
      t.pc = if operandInt .first m1 s ≠ 0 then operandValue .second m2 s else s.pc + BitVec.ofNat 64 i.length) ∧
    (∀ m1 m2, i = .jf m1 m2 →
      t.pc = if operandInt .first m1 s = 0 then operandValue .second m2 s else s.pc + BitVec.ofNat 64 i.length) ∧
    (i.opcode ∈ [1, 2, 4, 7, 8, 9] → t.pc = s.pc + BitVec.ofNat 64 i.length)

/-- R14: the pc is at most 2^63 after every pass that does not fault, and moving on to the next sequential
instruction never wraps. -/
def Obligations.PcNeverWraps : Prop :=
  ∀ (s t : State) (i : Instr), s.Inv → fetching s = true → s.pc.toNat < s.cfg.memLimit →
    decode (s.mem.read s.pc.toNat) = .ok i → step s = .next t → t.state = .running →
    t.pc.toNat ≤ 2 ^ 63 ∧
      (i.arity ≠ 2 → t.pc.toNat = s.pc.toNat + i.length) ∧
      (∀ m1 m2, i = .jt m1 m2 → operandInt .first m1 s = 0 → t.pc.toNat = s.pc.toNat + 3) ∧
      (∀ m1 m2, i = .jf m1 m2 → operandInt .first m1 s ≠ 0 → t.pc.toNat = s.pc.toNat + 3)

/-- R22, R24, R99: while the engine executes, the input queue changes only by an IN, which takes its head, and the
output queue only by an OUT, which appends its operand. -/
def Obligations.QueuesChangeOnlyByTheirInstruction : Prop :=
  ∀ s t : State, s.busy = true → step s = .next t → t.safe = true →
    (t.iq ≠ s.iq → ∃ m1 v, decode (s.mem.read s.pc.toNat) = .ok (.inp m1) ∧ s.iq = v :: t.iq) ∧
    (t.oq ≠ s.oq → ∃ m1, decode (s.mem.read s.pc.toNat) = .ok (.out m1) ∧
      t.oq = s.oq ++ [operandValue .first m1 s])

/-- R32, R36: the extent after an instruction is the old one grown to exactly the cells R36 lists for it. -/
def Obligations.ExtentGrowsByTheListedAccesses : Prop :=
  ∀ (s t : State) (i : Instr), fetching s = true → s.pc.toNat < s.cfg.memLimit →
    decode (s.mem.read s.pc.toNat) = .ok i → step s = .next t → t.safe = true →
    t.mem.extent = (s.pc.toNat :: accessedCells i s).foldl (fun len a => max len (a + 1)) s.mem.extent

/-- R25: the extent "never shrinks except by `reset`". That `from_program` can shrink the extent of this state as well
is the model's choice: it puts the new instance in the old one's place (log entry 4). -/
def Obligations.ExtentShrinksOnlyByALoad : Prop :=
  ∀ s t : State, step s = .next t → t.safe = true → t.mem.extent < s.mem.extent →
    s.busy = false ∧ ∃ image rest, s.commands = .reset image :: rest ∨ s.commands = .fromProgram image :: rest

/-- R41, R44: a word an instruction stores where the pc goes next is the very next instruction. -/
def Obligations.StoredWordIsTheNextInstruction : Prop :=
  ∀ (s t : State) (i j : Instr) (c : Nat) (w : Word), s.mem.wf = true → fetching s = true →
    s.pc.toNat < s.cfg.memLimit → decode (s.mem.read s.pc.toNat) = .ok i → storedWord i s = some (c, w) →
    step s = .next t → fetching t = true → t.pc.toNat = c → decode w = .ok j →
    step t = afterInstruction (exec j t)

/-- The parameters of R5 are fixed: no step changes them (log entry 1). -/
def Obligations.ParametersNeverChange : Prop :=
  ∀ s t : State, step s = .next t → t.cfg = s.cfg

/-- R35, which the spec marks as derived: after any accesses to the memory of an image, every cell reads as in an
unbounded array that began with the image and 0 everywhere else; only the extent records which cells were touched. -/
def Obligations.MemoryReadsAsAnUnboundedArray : Prop :=
  ∀ (image : List Word) (accesses : List CellAccess),
    (∀ a, (accesses.foldl CellAccess.onMemory (Memory.ofImage image)).read a =
      accesses.foldl CellAccess.onArray (fun b => image.getD b 0#64) a) ∧
    (accesses.foldl CellAccess.onMemory (Memory.ofImage image)).extent =
      accesses.foldl (fun len c => max len (c.1 + 1)) image.length

/-! ## Invariants -/

/-- Every step from a state that meets the invariant ends in one that does. -/
def Obligations.EveryStepKeepsTheInvariant : Prop :=
  ∀ s t : State, s.Inv → step s = .next t → t.Inv

/-- The state after reset, which is the model's choice of an image (log entry 5), meets the invariant. -/
def Obligations.ResetMeetsTheInvariant : Prop := State.reset.Inv

/-- R86, R87: "nothing of its unspecified state is ever observed". Two states that differ only in the counter of free
values (log entry 2) and, once faulted, in the unspecified values, step to outcomes that differ in no more. -/
def Obligations.UnspecifiedStateIsNeverObserved : Prop :=
  ∀ s t : State, SameToHost s t → SameOutcome (step s) (step t)

/-! ## The run loop and the host

A host command is taken from `commands` and its result is added to `replies`: how the host's side is held is the
model's choice (log entry 4). -/

/-- `run` begins (R91): a halted instance answers `Ok` and does not change; one in `Running` or `AwaitingInput` starts
executing with no step counted; a faulted one refuses. The result `Ok` is a reply (log entry 4). -/
def Obligations.RunStartsTheLoop : Prop :=
  ∀ (s : State) (rest : List Command), s.busy = false → s.commands = .run :: rest →
    (s.state = .halted → step s = .next { s with commands := rest, replies := s.replies ++ [.ok] }) ∧
    (s.state = .running ∨ s.state = .awaitingInput →
      step s = .next { s with commands := rest, state := .running, busy := true, steps := 0 }) ∧
    (s.state = .faulted → step s = .refused .instanceFaulted)

/-- R92: a finite budget that is spent raises `StepLimitExceeded` before the fetch; an unbounded one never does; a
completed instruction counts one, a suspension or a halt none. -/
def Obligations.StepBudgetCountsCompletedInstructions : Prop :=
  ∀ s : State, s.busy = true → s.state = .running →
    (s.cfg.stepBudget = some s.steps →
      ∃ t, step s = .next t ∧ t.state = .faulted ∧
        t.fault = some ⟨.stepLimitExceeded, 7, s.pc, none, none, some (s.steps : Int)⟩) ∧
    (s.cfg.stepBudget ≠ some s.steps →
      ∃ t, step s = .next t ∧
        (∀ r, t.fault = some r → s.fault = none → r.kind ≠ .stepLimitExceeded) ∧
        (t.state = .running → t.steps = s.steps + 1) ∧
        (t.state = .awaitingInput ∨ t.state = .halted → t.steps = s.steps))

/-- R92, R93: with a finite budget every `run` ends: from inside a `run`, the engine is idle again after at most as
many passes as the budget has instructions left, and one more. That one pass is one step is the model's choice (log
entry 12). -/
def Obligations.FiniteBudgetEndsEveryRun : Prop :=
  ∀ (s : State) (n : Nat), s.Inv → s.busy = true → s.cfg.stepBudget = some n →
    ∃ k t, k ≤ n - s.steps + 1 ∧ runSteps k s = .next t ∧ t.busy = false

/-- R75, R103: a halted instance stays halted, with its memory, pc and rb as they were, its output queue only drained
at its head and its input queue only added to at its tail, until the host loads an image, by `reset` or by a
`from_program` that takes the instance's place (log entry 4). -/
def Obligations.HaltedEndsOnlyByALoad : Prop :=
  ∀ s t : State, s.state = .halted → step s = .next t →
    (t.state = .halted ∧ t.busy = false ∧ t.mem = s.mem ∧ t.pc = s.pc ∧ t.rb = s.rb ∧
      (∃ added, t.iq = s.iq ++ added) ∧ (∃ taken, s.oq = taken ++ t.oq)) ∨
    (∃ image rest, (s.commands = .reset image :: rest ∨ s.commands = .fromProgram image :: rest) ∧
      isLoadState image t)

/-- The suspend and resume property (R90): an instance idle at an IN, its input queue empty, that is told to `run`, to
take `v` and to `run` again, first suspends there with its pc unmoved and not halted, and then completes exactly that
IN with `v`. The lists of commands and replies (log entry 4) and the count of steps, one for each command, for the
beginning of a `run` and for each pass (log entry 12), are the model's choice. -/
def Obligations.SuspendedInputResumesWithTheValue : Prop :=
  ∀ (s : State) (m1 : Mode) (v : Word) (rest : List Command), s.busy = false →
    (s.state = .running ∨ s.state = .awaitingInput) → s.cfg.legal = true → s.mem.wf = true → s.iq = [] →
    s.pc.toNat < s.cfg.memLimit → decode (s.mem.read s.pc.toNat) = .ok (.inp m1) → writable .first m1 s = true →
    s.commands = .run :: .writeInput v :: .run :: rest →
    ∃ t u, runSteps 2 s = .next t ∧ t.state = .awaitingInput ∧ t.busy = false ∧
      t.pc = s.pc ∧ t.iq = [] ∧ t.replies = s.replies ++ [.ok] ∧
      runSteps 5 s = .next u ∧ u.state = .running ∧ u.pc = s.pc + 2#64 ∧ u.iq = [] ∧
      u.oq = s.oq ∧ u.rb = s.rb ∧ u.steps = 1 ∧ u.mem.read (writeTarget .first m1 s) = v ∧
      keepsCellsBut (writeTarget .first m1 s) s u

/-- R105 (decision D17): `from_program` makes one more instance, in the load state of the image, and refuses an image
that is empty or longer than `MEM_LIMIT`. -/
def Obligations.FromProgramMakesALoadedInstance : Prop :=
  ∀ (cfg : Config) (image : List Word) (sys : Instances),
    (image ≠ [] → image.length ≤ cfg.memLimit →
      ∃ t, createInstance cfg image sys = .next (sys ++ [t]) ∧ isLoadState image t ∧ t.cfg = cfg) ∧
    (image = [] ∨ cfg.memLimit < image.length → createInstance cfg image sys = .refused .illegalImage)

/-- R106: `reset` puts every piece of the instance's state back to its load value, both queues cleared; an illegal
image is refused, and so is any `reset` in `Faulted`. The reply is the model's (log entry 4). -/
def Obligations.ResetRestoresTheLoadState : Prop :=
  ∀ (s : State) (image : List Word) (rest : List Command), s.busy = false → s.commands = .reset image :: rest →
    (s.state ≠ .faulted → image ≠ [] → image.length ≤ s.cfg.memLimit →
      ∃ t, step s = .next t ∧ isLoadState image t ∧ t.cfg = s.cfg ∧ t.commands = rest ∧
        t.replies = s.replies ++ [.done]) ∧
    (s.state ≠ .faulted → image = [] ∨ s.cfg.memLimit < image.length → step s = .refused .illegalImage) ∧
    (s.state = .faulted → step s = .refused .instanceFaulted)

/-- R107: `write_input` appends its value to the input queue, in every state but `Faulted`, and does nothing else. The
reply is the model's (log entry 4). -/
def Obligations.WriteInputAppends : Prop :=
  ∀ (s : State) (v : Word) (rest : List Command), s.busy = false → s.commands = .writeInput v :: rest →
    (s.state ≠ .faulted →
      step s = .next { s with commands := rest, iq := s.iq ++ [v], replies := s.replies ++ [.done] }) ∧
    (s.state = .faulted → step s = .refused .instanceFaulted)

/-- R109: `read_output` removes and returns the oldest output, or returns empty and changes nothing; what it returns
is a reply (log entry 4). -/
def Obligations.ReadOutputPopsTheOldest : Prop :=
  ∀ (s : State) (rest : List Command), s.busy = false → s.commands = .readOutput :: rest →
    (s.state ≠ .faulted → s.oq = [] →
      step s = .next { s with commands := rest, replies := s.replies ++ [.empty] }) ∧
    (s.state ≠ .faulted → ∀ v tail, s.oq = v :: tail →
      step s = .next { s with commands := rest, oq := tail, replies := s.replies ++ [.value v] }) ∧
    (s.state = .faulted → step s = .refused .instanceFaulted)

/-- R110: `halted` answers whether the run state is `Halted`, and changes nothing; the answer is a reply (log
entry 4). -/
def Obligations.HaltedObservesWithoutMutation : Prop :=
  ∀ (s : State) (rest : List Command), s.busy = false → s.commands = .halted :: rest →
    (s.state = .halted → step s = .next { s with commands := rest, replies := s.replies ++ [.flag true] }) ∧
    (s.state = .running ∨ s.state = .awaitingInput →
      step s = .next { s with commands := rest, replies := s.replies ++ [.flag false] })

/-- R111: `peek_memory` answers the cells 0 to `L` - 1 in order, so its length is the extent, and changes nothing;
it is refused in `Faulted`. The answer is a reply (log entry 4). -/
def Obligations.PeekMemoryAnswersTheImage : Prop :=
  ∀ (s : State) (rest : List Command), s.busy = false → s.commands = .peekMemory :: rest →
    (s.state ≠ .faulted →
      ∃ image : List Word, image.length = s.mem.extent ∧
        (∀ a, a < s.mem.extent → image.getD a 0#64 = s.mem.read a) ∧
        step s = .next { s with commands := rest, replies := s.replies ++ [.memory image] }) ∧
    (s.state = .faulted → step s = .refused .instanceFaulted)

/-- R116, which the spec marks as derived: after `reset` with one image, two instances with the same parameters answer
every sequence of host commands alike, whatever happened to them before. -/
def Obligations.ResetMakesRunsRepeatable : Prop :=
  ∀ (s s' : State) (image : List Word) (script : List Command) (k : Nat), s.cfg = s'.cfg →
    s.busy = false → s'.busy = false → s.safe = true → s'.safe = true → legalImage s.cfg image = true →
    ∃ t t', hostCommand (.reset image) s = .next t ∧ hostCommand (.reset image) s' = .next t' ∧
      SameOutcome (runSteps k { t with commands := script, replies := [] })
        (runSteps k { t' with commands := script, replies := [] })

/-- R100: a transition of one instance is one step of it, and leaves every other instance as it was. That the
instances stand in a list is the model's choice (log entry 10). -/
def Obligations.InstancesShareNoState : Prop :=
  ∀ (k : Nat) (sys sys' : Instances), stepInstance k sys = .next sys' →
    (∃ s t, sys[k]? = some s ∧ step s = .next t ∧ sys'[k]? = some t) ∧
    (∀ j, j ≠ k → sys'[j]? = sys[j]?) ∧ sys'.length = sys.length

/-! ## The loader -/

/-- The texts of 95_test_vectors.md H10, every row of it, the first being the text of W1 (R112, R113). -/
def Obligations.SampleTextsParseAsListed : Prop :=
  parseProgram ['1', ',', '9', ',', '1', '0', ',', '3', ',', '2', ',', '3', ',', '1', '1', ',', '0', ',', '9', '9',
      ',', '3', '0', ',', '4', '0', ',', '5', '0', '\n'] =
    .ok [1#64, 9#64, 10#64, 3#64, 2#64, 3#64, 11#64, 0#64, 99#64, 30#64, 40#64, 50#64] ∧
  parseProgram [' ', '1', ',', ' ', '-', '2', ' ', ',', '+', '3', '\n'] = .ok [1#64, BitVec.ofInt 64 (-2), 3#64] ∧
  parseProgram ['-', '9', '2', '2', '3', '3', '7', '2', '0', '3', '6', '8', '5', '4', '7', '7', '5', '8', '0', '8'] =
    .ok [BitVec.ofInt 64 (-9223372036854775808)] ∧
  parseProgram ['9', '2', '2', '3', '3', '7', '2', '0', '3', '6', '8', '5', '4', '7', '7', '5', '8', '0', '8'] =
    .error .parseError ∧
  parseProgram ['1', ',', ',', '2'] = .error .parseError ∧
  parseProgram ['1', ',', '2', ','] = .error .parseError ∧
  parseProgram [] = .error .parseError ∧
  parseProgram [' ', ' ', '\n'] = .error .parseError ∧
  parseProgram ['1', ',', 'a'] = .error .parseError ∧
  parseProgram ['1', ' ', '2'] = .error .parseError

/-- R112, R113: a text is split at every comma: two texts joined by a comma parse to the two images joined, and to
`ParseError` when either does not parse. -/
def Obligations.TextsJoinAtCommas : Prop :=
  ∀ a b : List Char,
    parseProgram (a ++ ',' :: b) =
      match parseProgram a, parseProgram b with
      | .ok x, .ok y => .ok (x ++ y)
      | _, _ => .error .parseError

/-! ## What an operand is -/

/-- R31 (decision D6), R46, R53, R54, of the terms the other statements are made of: parameter word `i` is the cell at
`pc + i`; the address is the exact integer `p` in position mode and the exact, unwrapped sum `rb + p` in relative
mode; the value read is the cell there, or `p` itself in immediate mode; and the write target is that address. -/
def Obligations.OperandsAreTheCellsTheModesName : Prop :=
  ∀ (i : ParamIndex) (s : State),
    paramWord .first s = s.mem.read (s.pc.toNat + 1) ∧
    paramWord .second s = s.mem.read (s.pc.toNat + 2) ∧
    paramWord .third s = s.mem.read (s.pc.toNat + 3) ∧
    operandAddress i .position s = (paramWord i s).toInt ∧
    operandAddress i .relative s = s.rb.toInt + (paramWord i s).toInt ∧
    operandValue i .immediate s = paramWord i s ∧
    operandValue i .position s = s.mem.read (paramWord i s).toInt.toNat ∧
    operandValue i .relative s = s.mem.read (s.rb.toInt + (paramWord i s).toInt).toNat ∧
    writeTarget i .position s = (paramWord i s).toInt.toNat ∧
    writeTarget i .relative s = (s.rb.toInt + (paramWord i s).toInt).toNat

/-- R53, R54, of the machine's own operand resolution, with the sum of R31 written out: a read parameter in relative
mode whose word and address lie in the memory is read at `rb + p`, and a write parameter resolves to `rb + p`; in
position mode both are at `p`. -/
def Obligations.ResolutionUsesTheExactAddress : Prop :=
  ∀ (i : ParamIndex) (s : State) (a : Int), paramCell i s < s.cfg.memLimit → 0 ≤ a → a < (s.cfg.memLimit : Int) →
    (a = s.rb.toInt + (s.mem.read (s.pc.toNat + i.toNat)).toInt →
      (∃ t, readParam i .relative s = .ok (s.mem.read a.toNat, t)) ∧
      (∃ t, writeAddr i .relative s = .ok (a.toNat, t))) ∧
    (a = (s.mem.read (s.pc.toNat + i.toNat)).toInt →
      (∃ t, readParam i .position s = .ok (s.mem.read a.toNat, t)) ∧
      (∃ t, writeAddr i .position s = .ok (a.toNat, t)))
end

