-- ==== Sys2Proof/Laws/Memory.lean ====
section
/-! SUPPORT. The laws of the Memory: reading over writing and over the zero-fill extension, and the canonical form,
which every memory operation keeps. -/

namespace Sys2Proof.Machine

/-! ## Lists of cells -/

theorem risingCells_mono_lo {lo lo' hi : Nat} (h : lo' ≤ lo) :
    ∀ {l : List (Nat × Word)}, risingCells lo hi l = true → risingCells lo' hi l = true
  | [], _ => rfl
  | (k, x) :: rest, hl => by
    simp only [risingCells, Bool.and_eq_true, decide_eq_true_eq] at hl ⊢
    exact ⟨⟨⟨by omega, hl.1.1.2⟩, hl.1.2⟩, hl.2⟩

theorem risingCells_mono_hi {hi hi' : Nat} (h : hi ≤ hi') :
    ∀ {lo : Nat} {l : List (Nat × Word)}, risingCells lo hi l = true → risingCells lo hi' l = true
  | _, [], _ => rfl
  | lo, (k, x) :: rest, hl => by
    simp only [risingCells, Bool.and_eq_true, decide_eq_true_eq] at hl ⊢
    exact ⟨⟨⟨hl.1.1.1, by omega⟩, hl.1.2⟩, risingCells_mono_hi h hl.2⟩

/-- A cell below a rising list's first address is not listed. -/
theorem lookupCell_below {hi a : Nat} :
    ∀ {lo : Nat} {l : List (Nat × Word)}, risingCells lo hi l = true → a < lo → lookupCell l a = 0#64
  | _, [], _, _ => rfl
  | lo, (k, x) :: rest, hl, ha => by
    simp only [risingCells, Bool.and_eq_true, decide_eq_true_eq] at hl
    simp only [lookupCell, show ¬ k = a by omega, if_false]
    exact lookupCell_below hl.2 (by omega)

/-- A cell at or beyond a rising list's bound is not listed. -/
theorem lookupCell_beyond {hi a : Nat} (ha : hi ≤ a) :
    ∀ {lo : Nat} {l : List (Nat × Word)}, risingCells lo hi l = true → lookupCell l a = 0#64
  | _, [], _ => rfl
  | lo, (k, x) :: rest, hl => by
    simp only [risingCells, Bool.and_eq_true, decide_eq_true_eq] at hl
    simp only [lookupCell, show ¬ k = a by omega, if_false]
    exact lookupCell_beyond ha hl.2

theorem lookupCell_insertCell_same {hi a : Nat} {v : Word} :
    ∀ {lo : Nat} {l : List (Nat × Word)}, risingCells lo hi l = true → lookupCell (insertCell l a v) a = v
  | _, [], _ => by by_cases hv : v = 0#64 <;> simp [insertCell, lookupCell, hv]
  | lo, (k, x) :: rest, hl => by
    have hrest := hl
    simp only [risingCells, Bool.and_eq_true, decide_eq_true_eq] at hrest
    by_cases h1 : a < k
    · by_cases hv : v = 0#64
      · simp only [insertCell, h1, if_true, hv]
        exact lookupCell_below (lo := k) (hi := hi) (by simp [risingCells, hrest]) h1
      · simp [insertCell, lookupCell, h1, hv]
    · by_cases h2 : a = k
      · subst h2
        by_cases hv : v = 0#64
        · simp only [insertCell, Nat.lt_irrefl, if_false, if_true, hv]
          exact lookupCell_below hrest.2 (by omega)
        · simp [insertCell, lookupCell, hv]
      · simp only [insertCell, h1, h2, if_false, lookupCell, show ¬ k = a by omega]
        exact lookupCell_insertCell_same hrest.2

theorem lookupCell_insertCell_ne {a b : Nat} {v : Word} (hab : b ≠ a) :
    ∀ (l : List (Nat × Word)), lookupCell (insertCell l a v) b = lookupCell l b
  | [] => by by_cases hv : v = 0#64 <;> simp [insertCell, lookupCell, hv, hab.symm]
  | (k, x) :: rest => by
    by_cases h1 : a < k
    · by_cases hv : v = 0#64 <;> simp [insertCell, lookupCell, h1, hv, hab.symm]
    · by_cases h2 : a = k
      · subst h2
        by_cases hv : v = 0#64 <;> simp [insertCell, lookupCell, hv, hab.symm]
      · simp [insertCell, lookupCell, h1, h2, lookupCell_insertCell_ne hab rest]

theorem risingCells_insertCell {hi a : Nat} {v : Word} (hhi : a < hi) :
    ∀ {lo : Nat} {l : List (Nat × Word)}, risingCells lo hi l = true → lo ≤ a →
      risingCells lo hi (insertCell l a v) = true
  | lo, [], _, hlo => by
    by_cases hv : v = 0#64 <;> simp [insertCell, risingCells, hv, hlo, hhi]
  | lo, (k, x) :: rest, hl, hlo => by
    have hrest := hl
    simp only [risingCells, Bool.and_eq_true, decide_eq_true_eq] at hrest
    obtain ⟨⟨⟨hk, hkhi⟩, hx⟩, hr⟩ := hrest
    by_cases h1 : a < k
    · by_cases hv : v = 0#64
      · simpa [insertCell, h1, hv] using hl
      · simp [insertCell, h1, hv, risingCells, hlo, hhi, hkhi, hx, hr, Nat.succ_le_of_lt h1]
    · by_cases h2 : a = k
      · subst h2
        by_cases hv : v = 0#64
        · simpa [insertCell, hv] using risingCells_mono_lo (by omega) hr
        · simp [insertCell, hv, risingCells, hlo, hhi, hr]
      · simp only [insertCell, h1, h2, if_false, risingCells, Bool.and_eq_true, decide_eq_true_eq]
        exact ⟨⟨⟨hk, hkhi⟩, hx⟩, risingCells_insertCell hhi hr (by omega)⟩

/-! ## Memory -/

@[simp] theorem Memory.read_touch (m : Memory) (a b : Nat) : (m.touch a).read b = m.read b := by
  unfold Memory.touch; split <;> rfl

@[simp] theorem Memory.read_touchAll (m : Memory) (cells : List Nat) (b : Nat) :
    (m.touchAll cells).read b = m.read b := by
  induction cells generalizing m with
  | nil => rfl
  | cons a rest ih => simpa [Memory.touchAll] using ih (m.touch a)

theorem Memory.extent_touch (m : Memory) (a : Nat) : (m.touch a).extent = max m.extent (a + 1) := by
  unfold Memory.touch; split <;> simp <;> omega

@[simp] theorem Memory.cells_touch (m : Memory) (a : Nat) : (m.touch a).cells = m.cells := by
  unfold Memory.touch; split <;> rfl

theorem Memory.extent_write (m : Memory) (a : Nat) (v : Word) :
    (m.write a v).extent = max m.extent (a + 1) := m.extent_touch a

theorem Memory.wf_touch {m : Memory} (h : m.wf = true) (a : Nat) : (m.touch a).wf = true := by
  unfold Memory.wf at *
  rw [Memory.cells_touch]
  exact risingCells_mono_hi (by rw [Memory.extent_touch]; omega) h

theorem Memory.wf_touchAll {m : Memory} (h : m.wf = true) (cells : List Nat) : (m.touchAll cells).wf = true := by
  induction cells generalizing m with
  | nil => exact h
  | cons a rest ih => exact ih (Memory.wf_touch h a)

theorem Memory.wf_write {m : Memory} (h : m.wf = true) (a : Nat) (v : Word) : (m.write a v).wf = true := by
  have ht := Memory.wf_touch h a
  unfold Memory.wf at ht ⊢
  rw [Memory.cells_touch] at ht
  exact risingCells_insertCell (by rw [Memory.extent_write]; omega) ht (Nat.zero_le a)

theorem Memory.read_write_same {m : Memory} (h : m.wf = true) (a : Nat) (v : Word) :
    (m.write a v).read a = v := lookupCell_insertCell_same h

theorem Memory.read_write_ne (m : Memory) {a b : Nat} (v : Word) (hab : b ≠ a) :
    (m.write a v).read b = m.read b := lookupCell_insertCell_ne hab m.cells

/-- A cell beyond the extent reads 0 (R35). -/
theorem Memory.read_beyond {m : Memory} (h : m.wf = true) {a : Nat} (ha : m.extent ≤ a) : m.read a = 0#64 :=
  lookupCell_beyond ha h

theorem risingCells_imageCells {hi : Nat} :
    ∀ (image : List Word) (start : Nat), start + image.length ≤ hi →
      risingCells start hi (imageCells start image) = true
  | [], _, _ => rfl
  | w :: rest, start, h => by
    have hr := risingCells_imageCells (hi := hi) rest (start + 1) (by simp only [List.length_cons] at h; omega)
    simp only [List.length_cons] at h
    by_cases hw : w = 0#64
    · simpa [imageCells, hw] using risingCells_mono_lo (Nat.le_succ start) hr
    · simp [imageCells, hw, risingCells, hr]; omega

theorem Memory.wf_ofImage (image : List Word) : (Memory.ofImage image).wf = true :=
  risingCells_imageCells image 0 (by simp [Memory.ofImage])

theorem lookupCell_imageCells :
    ∀ (image : List Word) (start a : Nat), lookupCell (imageCells start image) (start + a) = image.getD a 0#64
  | [], _, _ => rfl
  | w :: rest, start, 0 => by
    by_cases hw : w = 0#64
    · simp only [imageCells, hw, if_true]
      exact lookupCell_below (hi := start + 1 + rest.length)
        (risingCells_imageCells rest (start + 1) (Nat.le_refl _)) (by omega)
    · simp [imageCells, hw, lookupCell]
  | w :: rest, start, a + 1 => by
    have ih := lookupCell_imageCells rest (start + 1) a
    rw [show start + 1 + a = start + (a + 1) by omega] at ih
    by_cases hw : w = 0#64
    · simpa [imageCells, hw] using ih
    · simpa [imageCells, hw, lookupCell] using ih

/-- The memory of an image holds the image, and 0 beyond it (R35). -/
theorem Memory.read_ofImage (image : List Word) (a : Nat) : (Memory.ofImage image).read a = image.getD a 0#64 := by
  simpa [Memory.read, Memory.ofImage] using lookupCell_imageCells image 0 a

theorem risingCells_collectCells (hi : Nat) :
    ∀ (l : List (Nat × Word)), risingCells 0 hi (collectCells hi l) = true
  | [] => rfl
  | (a, v) :: rest => by
    by_cases h : a < hi
    · simpa [collectCells, h] using
        risingCells_insertCell h (risingCells_collectCells hi rest) (Nat.zero_le a)
    · simpa [collectCells, h] using risingCells_collectCells hi rest

theorem wf_freeMemory (draw : Nat) : (freeMemory draw).wf = true := risingCells_collectCells _ _

/-- Storing words in consecutive cells keeps the canonical form. -/
theorem wf_storeCells (limit : Nat) :
    ∀ (words : List Word) (a : Nat) {m : Memory}, m.wf = true → (storeCells limit a words m).wf = true
  | [], _, _, h => h
  | w :: rest, a, m, h => by
    unfold storeCells
    split
    · exact wf_storeCells limit rest (a + 1) (Memory.wf_write h a w)
    · exact wf_storeCells limit rest (a + 1) h

/-- Storing from `a` on leaves every cell below `a` alone. -/
theorem read_storeCells_below (limit : Nat) {b : Nat} :
    ∀ (words : List Word) (a : Nat) (m : Memory), b < a → (storeCells limit a words m).read b = m.read b
  | [], _, _, _ => rfl
  | w :: rest, a, m, h => by
    unfold storeCells
    rw [read_storeCells_below limit rest (a + 1) _ (by omega)]
    split
    · exact Memory.read_write_ne m w (by omega)
    · rfl

/-- The first of the words stored stands at `a`. -/
theorem read_storeCells_first {limit a : Nat} {m : Memory} (h : m.wf = true) (ha : a < limit) (w : Word)
    (rest : List Word) : (storeCells limit a (w :: rest) m).read a = w := by
  unfold storeCells
  rw [read_storeCells_below limit rest (a + 1) _ (Nat.lt_succ_self a), if_pos ha]
  exact Memory.read_write_same h a w

end Sys2Proof.Machine
end

