-- ==== Sys2Proof/Laws/State.lean ====
section
/-! SUPPORT. One lemma per field per update of the state, each true by rfl; later proofs cite these (through simp)
and unfold no record update. -/

namespace Sys2Proof.Machine

/-! ## setMem -/

@[simp] theorem State.setMem_cfg (s : State) (m : Memory) : (s.setMem m).cfg = s.cfg := rfl
@[simp] theorem State.setMem_mem (s : State) (m : Memory) : (s.setMem m).mem = m := rfl
@[simp] theorem State.setMem_pc (s : State) (m : Memory) : (s.setMem m).pc = s.pc := rfl
@[simp] theorem State.setMem_rb (s : State) (m : Memory) : (s.setMem m).rb = s.rb := rfl
@[simp] theorem State.setMem_state (s : State) (m : Memory) : (s.setMem m).state = s.state := rfl
@[simp] theorem State.setMem_iq (s : State) (m : Memory) : (s.setMem m).iq = s.iq := rfl
@[simp] theorem State.setMem_oq (s : State) (m : Memory) : (s.setMem m).oq = s.oq := rfl
@[simp] theorem State.setMem_busy (s : State) (m : Memory) : (s.setMem m).busy = s.busy := rfl
@[simp] theorem State.setMem_steps (s : State) (m : Memory) : (s.setMem m).steps = s.steps := rfl
@[simp] theorem State.setMem_fault (s : State) (m : Memory) : (s.setMem m).fault = s.fault := rfl
@[simp] theorem State.setMem_commands (s : State) (m : Memory) : (s.setMem m).commands = s.commands := rfl
@[simp] theorem State.setMem_replies (s : State) (m : Memory) : (s.setMem m).replies = s.replies := rfl
@[simp] theorem State.setMem_freeDraws (s : State) (m : Memory) : (s.setMem m).freeDraws = s.freeDraws := rfl

/-! ## setPc -/

@[simp] theorem State.setPc_cfg (s : State) (v : Word) : (s.setPc v).cfg = s.cfg := rfl
@[simp] theorem State.setPc_mem (s : State) (v : Word) : (s.setPc v).mem = s.mem := rfl
@[simp] theorem State.setPc_pc (s : State) (v : Word) : (s.setPc v).pc = v := rfl
@[simp] theorem State.setPc_rb (s : State) (v : Word) : (s.setPc v).rb = s.rb := rfl
@[simp] theorem State.setPc_state (s : State) (v : Word) : (s.setPc v).state = s.state := rfl
@[simp] theorem State.setPc_iq (s : State) (v : Word) : (s.setPc v).iq = s.iq := rfl
@[simp] theorem State.setPc_oq (s : State) (v : Word) : (s.setPc v).oq = s.oq := rfl
@[simp] theorem State.setPc_busy (s : State) (v : Word) : (s.setPc v).busy = s.busy := rfl
@[simp] theorem State.setPc_steps (s : State) (v : Word) : (s.setPc v).steps = s.steps := rfl
@[simp] theorem State.setPc_fault (s : State) (v : Word) : (s.setPc v).fault = s.fault := rfl
@[simp] theorem State.setPc_commands (s : State) (v : Word) : (s.setPc v).commands = s.commands := rfl
@[simp] theorem State.setPc_replies (s : State) (v : Word) : (s.setPc v).replies = s.replies := rfl
@[simp] theorem State.setPc_freeDraws (s : State) (v : Word) : (s.setPc v).freeDraws = s.freeDraws := rfl

/-! ## setRb -/

@[simp] theorem State.setRb_cfg (s : State) (v : Word) : (s.setRb v).cfg = s.cfg := rfl
@[simp] theorem State.setRb_mem (s : State) (v : Word) : (s.setRb v).mem = s.mem := rfl
@[simp] theorem State.setRb_pc (s : State) (v : Word) : (s.setRb v).pc = s.pc := rfl
@[simp] theorem State.setRb_rb (s : State) (v : Word) : (s.setRb v).rb = v := rfl
@[simp] theorem State.setRb_state (s : State) (v : Word) : (s.setRb v).state = s.state := rfl
@[simp] theorem State.setRb_iq (s : State) (v : Word) : (s.setRb v).iq = s.iq := rfl
@[simp] theorem State.setRb_oq (s : State) (v : Word) : (s.setRb v).oq = s.oq := rfl
@[simp] theorem State.setRb_busy (s : State) (v : Word) : (s.setRb v).busy = s.busy := rfl
@[simp] theorem State.setRb_steps (s : State) (v : Word) : (s.setRb v).steps = s.steps := rfl
@[simp] theorem State.setRb_fault (s : State) (v : Word) : (s.setRb v).fault = s.fault := rfl
@[simp] theorem State.setRb_commands (s : State) (v : Word) : (s.setRb v).commands = s.commands := rfl
@[simp] theorem State.setRb_replies (s : State) (v : Word) : (s.setRb v).replies = s.replies := rfl
@[simp] theorem State.setRb_freeDraws (s : State) (v : Word) : (s.setRb v).freeDraws = s.freeDraws := rfl

/-! ## setRunState -/

@[simp] theorem State.setRunState_cfg (s : State) (r : RunState) : (s.setRunState r).cfg = s.cfg := rfl
@[simp] theorem State.setRunState_mem (s : State) (r : RunState) : (s.setRunState r).mem = s.mem := rfl
@[simp] theorem State.setRunState_pc (s : State) (r : RunState) : (s.setRunState r).pc = s.pc := rfl
@[simp] theorem State.setRunState_rb (s : State) (r : RunState) : (s.setRunState r).rb = s.rb := rfl
@[simp] theorem State.setRunState_state (s : State) (r : RunState) : (s.setRunState r).state = r := rfl
@[simp] theorem State.setRunState_iq (s : State) (r : RunState) : (s.setRunState r).iq = s.iq := rfl
@[simp] theorem State.setRunState_oq (s : State) (r : RunState) : (s.setRunState r).oq = s.oq := rfl
@[simp] theorem State.setRunState_busy (s : State) (r : RunState) : (s.setRunState r).busy = s.busy := rfl
@[simp] theorem State.setRunState_steps (s : State) (r : RunState) : (s.setRunState r).steps = s.steps := rfl
@[simp] theorem State.setRunState_fault (s : State) (r : RunState) : (s.setRunState r).fault = s.fault := rfl
@[simp] theorem State.setRunState_commands (s : State) (r : RunState) : (s.setRunState r).commands = s.commands := rfl
@[simp] theorem State.setRunState_replies (s : State) (r : RunState) : (s.setRunState r).replies = s.replies := rfl
@[simp] theorem State.setRunState_freeDraws (s : State) (r : RunState) : (s.setRunState r).freeDraws = s.freeDraws := rfl

/-! ## setIq -/

@[simp] theorem State.setIq_cfg (s : State) (q : List Word) : (s.setIq q).cfg = s.cfg := rfl
@[simp] theorem State.setIq_mem (s : State) (q : List Word) : (s.setIq q).mem = s.mem := rfl
@[simp] theorem State.setIq_pc (s : State) (q : List Word) : (s.setIq q).pc = s.pc := rfl
@[simp] theorem State.setIq_rb (s : State) (q : List Word) : (s.setIq q).rb = s.rb := rfl
@[simp] theorem State.setIq_state (s : State) (q : List Word) : (s.setIq q).state = s.state := rfl
@[simp] theorem State.setIq_iq (s : State) (q : List Word) : (s.setIq q).iq = q := rfl
@[simp] theorem State.setIq_oq (s : State) (q : List Word) : (s.setIq q).oq = s.oq := rfl
@[simp] theorem State.setIq_busy (s : State) (q : List Word) : (s.setIq q).busy = s.busy := rfl
@[simp] theorem State.setIq_steps (s : State) (q : List Word) : (s.setIq q).steps = s.steps := rfl
@[simp] theorem State.setIq_fault (s : State) (q : List Word) : (s.setIq q).fault = s.fault := rfl
@[simp] theorem State.setIq_commands (s : State) (q : List Word) : (s.setIq q).commands = s.commands := rfl
@[simp] theorem State.setIq_replies (s : State) (q : List Word) : (s.setIq q).replies = s.replies := rfl
@[simp] theorem State.setIq_freeDraws (s : State) (q : List Word) : (s.setIq q).freeDraws = s.freeDraws := rfl

/-! ## setOq -/

@[simp] theorem State.setOq_cfg (s : State) (q : List Word) : (s.setOq q).cfg = s.cfg := rfl
@[simp] theorem State.setOq_mem (s : State) (q : List Word) : (s.setOq q).mem = s.mem := rfl
@[simp] theorem State.setOq_pc (s : State) (q : List Word) : (s.setOq q).pc = s.pc := rfl
@[simp] theorem State.setOq_rb (s : State) (q : List Word) : (s.setOq q).rb = s.rb := rfl
@[simp] theorem State.setOq_state (s : State) (q : List Word) : (s.setOq q).state = s.state := rfl
@[simp] theorem State.setOq_iq (s : State) (q : List Word) : (s.setOq q).iq = s.iq := rfl
@[simp] theorem State.setOq_oq (s : State) (q : List Word) : (s.setOq q).oq = q := rfl
@[simp] theorem State.setOq_busy (s : State) (q : List Word) : (s.setOq q).busy = s.busy := rfl
@[simp] theorem State.setOq_steps (s : State) (q : List Word) : (s.setOq q).steps = s.steps := rfl
@[simp] theorem State.setOq_fault (s : State) (q : List Word) : (s.setOq q).fault = s.fault := rfl
@[simp] theorem State.setOq_commands (s : State) (q : List Word) : (s.setOq q).commands = s.commands := rfl
@[simp] theorem State.setOq_replies (s : State) (q : List Word) : (s.setOq q).replies = s.replies := rfl
@[simp] theorem State.setOq_freeDraws (s : State) (q : List Word) : (s.setOq q).freeDraws = s.freeDraws := rfl

/-! ## setBusy -/

@[simp] theorem State.setBusy_cfg (s : State) (b : Bool) : (s.setBusy b).cfg = s.cfg := rfl
@[simp] theorem State.setBusy_mem (s : State) (b : Bool) : (s.setBusy b).mem = s.mem := rfl
@[simp] theorem State.setBusy_pc (s : State) (b : Bool) : (s.setBusy b).pc = s.pc := rfl
@[simp] theorem State.setBusy_rb (s : State) (b : Bool) : (s.setBusy b).rb = s.rb := rfl
@[simp] theorem State.setBusy_state (s : State) (b : Bool) : (s.setBusy b).state = s.state := rfl
@[simp] theorem State.setBusy_iq (s : State) (b : Bool) : (s.setBusy b).iq = s.iq := rfl
@[simp] theorem State.setBusy_oq (s : State) (b : Bool) : (s.setBusy b).oq = s.oq := rfl
@[simp] theorem State.setBusy_busy (s : State) (b : Bool) : (s.setBusy b).busy = b := rfl
@[simp] theorem State.setBusy_steps (s : State) (b : Bool) : (s.setBusy b).steps = s.steps := rfl
@[simp] theorem State.setBusy_fault (s : State) (b : Bool) : (s.setBusy b).fault = s.fault := rfl
@[simp] theorem State.setBusy_commands (s : State) (b : Bool) : (s.setBusy b).commands = s.commands := rfl
@[simp] theorem State.setBusy_replies (s : State) (b : Bool) : (s.setBusy b).replies = s.replies := rfl
@[simp] theorem State.setBusy_freeDraws (s : State) (b : Bool) : (s.setBusy b).freeDraws = s.freeDraws := rfl

/-! ## setSteps -/

@[simp] theorem State.setSteps_cfg (s : State) (n : Nat) : (s.setSteps n).cfg = s.cfg := rfl
@[simp] theorem State.setSteps_mem (s : State) (n : Nat) : (s.setSteps n).mem = s.mem := rfl
@[simp] theorem State.setSteps_pc (s : State) (n : Nat) : (s.setSteps n).pc = s.pc := rfl
@[simp] theorem State.setSteps_rb (s : State) (n : Nat) : (s.setSteps n).rb = s.rb := rfl
@[simp] theorem State.setSteps_state (s : State) (n : Nat) : (s.setSteps n).state = s.state := rfl
@[simp] theorem State.setSteps_iq (s : State) (n : Nat) : (s.setSteps n).iq = s.iq := rfl
@[simp] theorem State.setSteps_oq (s : State) (n : Nat) : (s.setSteps n).oq = s.oq := rfl
@[simp] theorem State.setSteps_busy (s : State) (n : Nat) : (s.setSteps n).busy = s.busy := rfl
@[simp] theorem State.setSteps_steps (s : State) (n : Nat) : (s.setSteps n).steps = n := rfl
@[simp] theorem State.setSteps_fault (s : State) (n : Nat) : (s.setSteps n).fault = s.fault := rfl
@[simp] theorem State.setSteps_commands (s : State) (n : Nat) : (s.setSteps n).commands = s.commands := rfl
@[simp] theorem State.setSteps_replies (s : State) (n : Nat) : (s.setSteps n).replies = s.replies := rfl
@[simp] theorem State.setSteps_freeDraws (s : State) (n : Nat) : (s.setSteps n).freeDraws = s.freeDraws := rfl

/-! ## reply -/

@[simp] theorem State.reply_cfg (s : State) (r : Reply) : (s.reply r).cfg = s.cfg := rfl
@[simp] theorem State.reply_mem (s : State) (r : Reply) : (s.reply r).mem = s.mem := rfl
@[simp] theorem State.reply_pc (s : State) (r : Reply) : (s.reply r).pc = s.pc := rfl
@[simp] theorem State.reply_rb (s : State) (r : Reply) : (s.reply r).rb = s.rb := rfl
@[simp] theorem State.reply_state (s : State) (r : Reply) : (s.reply r).state = s.state := rfl
@[simp] theorem State.reply_iq (s : State) (r : Reply) : (s.reply r).iq = s.iq := rfl
@[simp] theorem State.reply_oq (s : State) (r : Reply) : (s.reply r).oq = s.oq := rfl
@[simp] theorem State.reply_busy (s : State) (r : Reply) : (s.reply r).busy = s.busy := rfl
@[simp] theorem State.reply_steps (s : State) (r : Reply) : (s.reply r).steps = s.steps := rfl
@[simp] theorem State.reply_fault (s : State) (r : Reply) : (s.reply r).fault = s.fault := rfl
@[simp] theorem State.reply_commands (s : State) (r : Reply) : (s.reply r).commands = s.commands := rfl
@[simp] theorem State.reply_replies (s : State) (r : Reply) : (s.reply r).replies = s.replies ++ [r] := rfl
@[simp] theorem State.reply_freeDraws (s : State) (r : Reply) : (s.reply r).freeDraws = s.freeDraws := rfl

/-! ## advance -/

@[simp] theorem State.advance_cfg (s : State) (n : Nat) : (s.advance n).cfg = s.cfg := rfl
@[simp] theorem State.advance_mem (s : State) (n : Nat) : (s.advance n).mem = s.mem := rfl
@[simp] theorem State.advance_pc (s : State) (n : Nat) : (s.advance n).pc = s.pc + BitVec.ofNat 64 n := rfl
@[simp] theorem State.advance_rb (s : State) (n : Nat) : (s.advance n).rb = s.rb := rfl
@[simp] theorem State.advance_state (s : State) (n : Nat) : (s.advance n).state = s.state := rfl
@[simp] theorem State.advance_iq (s : State) (n : Nat) : (s.advance n).iq = s.iq := rfl
@[simp] theorem State.advance_oq (s : State) (n : Nat) : (s.advance n).oq = s.oq := rfl
@[simp] theorem State.advance_busy (s : State) (n : Nat) : (s.advance n).busy = s.busy := rfl
@[simp] theorem State.advance_steps (s : State) (n : Nat) : (s.advance n).steps = s.steps := rfl
@[simp] theorem State.advance_fault (s : State) (n : Nat) : (s.advance n).fault = s.fault := rfl
@[simp] theorem State.advance_commands (s : State) (n : Nat) : (s.advance n).commands = s.commands := rfl
@[simp] theorem State.advance_replies (s : State) (n : Nat) : (s.advance n).replies = s.replies := rfl
@[simp] theorem State.advance_freeDraws (s : State) (n : Nat) : (s.advance n).freeDraws = s.freeDraws := rfl

/-! ## pushOutput -/

@[simp] theorem State.pushOutput_cfg (s : State) (v : Word) : (s.pushOutput v).cfg = s.cfg := rfl
@[simp] theorem State.pushOutput_mem (s : State) (v : Word) : (s.pushOutput v).mem = s.mem := rfl
@[simp] theorem State.pushOutput_pc (s : State) (v : Word) : (s.pushOutput v).pc = s.pc := rfl
@[simp] theorem State.pushOutput_rb (s : State) (v : Word) : (s.pushOutput v).rb = s.rb := rfl
@[simp] theorem State.pushOutput_state (s : State) (v : Word) : (s.pushOutput v).state = s.state := rfl
@[simp] theorem State.pushOutput_iq (s : State) (v : Word) : (s.pushOutput v).iq = s.iq := rfl
@[simp] theorem State.pushOutput_oq (s : State) (v : Word) : (s.pushOutput v).oq = s.oq ++ [v] := rfl
@[simp] theorem State.pushOutput_busy (s : State) (v : Word) : (s.pushOutput v).busy = s.busy := rfl
@[simp] theorem State.pushOutput_steps (s : State) (v : Word) : (s.pushOutput v).steps = s.steps := rfl
@[simp] theorem State.pushOutput_fault (s : State) (v : Word) : (s.pushOutput v).fault = s.fault := rfl
@[simp] theorem State.pushOutput_commands (s : State) (v : Word) : (s.pushOutput v).commands = s.commands := rfl
@[simp] theorem State.pushOutput_replies (s : State) (v : Word) : (s.pushOutput v).replies = s.replies := rfl
@[simp] theorem State.pushOutput_freeDraws (s : State) (v : Word) : (s.pushOutput v).freeDraws = s.freeDraws := rfl

/-! ## pushInput -/

@[simp] theorem State.pushInput_cfg (s : State) (v : Word) : (s.pushInput v).cfg = s.cfg := rfl
@[simp] theorem State.pushInput_mem (s : State) (v : Word) : (s.pushInput v).mem = s.mem := rfl
@[simp] theorem State.pushInput_pc (s : State) (v : Word) : (s.pushInput v).pc = s.pc := rfl
@[simp] theorem State.pushInput_rb (s : State) (v : Word) : (s.pushInput v).rb = s.rb := rfl
@[simp] theorem State.pushInput_state (s : State) (v : Word) : (s.pushInput v).state = s.state := rfl
@[simp] theorem State.pushInput_iq (s : State) (v : Word) : (s.pushInput v).iq = s.iq ++ [v] := rfl
@[simp] theorem State.pushInput_oq (s : State) (v : Word) : (s.pushInput v).oq = s.oq := rfl
@[simp] theorem State.pushInput_busy (s : State) (v : Word) : (s.pushInput v).busy = s.busy := rfl
@[simp] theorem State.pushInput_steps (s : State) (v : Word) : (s.pushInput v).steps = s.steps := rfl
@[simp] theorem State.pushInput_fault (s : State) (v : Word) : (s.pushInput v).fault = s.fault := rfl
@[simp] theorem State.pushInput_commands (s : State) (v : Word) : (s.pushInput v).commands = s.commands := rfl
@[simp] theorem State.pushInput_replies (s : State) (v : Word) : (s.pushInput v).replies = s.replies := rfl
@[simp] theorem State.pushInput_freeDraws (s : State) (v : Word) : (s.pushInput v).freeDraws = s.freeDraws := rfl

/-! ## takeFault -/

@[simp] theorem takeFault_cfg (w : Option Word) (r : Raise) (s : State) :
    (takeFault w r s).cfg = s.cfg := rfl
@[simp] theorem takeFault_mem (w : Option Word) (r : Raise) (s : State) :
    (takeFault w r s).mem = freeMemory s.freeDraws := rfl
@[simp] theorem takeFault_pc (w : Option Word) (r : Raise) (s : State) :
    (takeFault w r s).pc = Config.freePc s.freeDraws := rfl
@[simp] theorem takeFault_rb (w : Option Word) (r : Raise) (s : State) :
    (takeFault w r s).rb = Config.freeRb s.freeDraws := rfl
@[simp] theorem takeFault_state (w : Option Word) (r : Raise) (s : State) :
    (takeFault w r s).state = .faulted := rfl
@[simp] theorem takeFault_iq (w : Option Word) (r : Raise) (s : State) :
    (takeFault w r s).iq = Config.freeInputQueue s.freeDraws := rfl
@[simp] theorem takeFault_oq (w : Option Word) (r : Raise) (s : State) :
    (takeFault w r s).oq = Config.freeOutputQueue s.freeDraws := rfl
@[simp] theorem takeFault_busy (w : Option Word) (r : Raise) (s : State) :
    (takeFault w r s).busy = false := rfl
@[simp] theorem takeFault_steps (w : Option Word) (r : Raise) (s : State) :
    (takeFault w r s).steps = s.steps := rfl
@[simp] theorem takeFault_fault (w : Option Word) (r : Raise) (s : State) :
    (takeFault w r s).fault = some (faultRecord w r s) := rfl
@[simp] theorem takeFault_commands (w : Option Word) (r : Raise) (s : State) :
    (takeFault w r s).commands = s.commands := rfl
@[simp] theorem takeFault_replies (w : Option Word) (r : Raise) (s : State) :
    (takeFault w r s).replies = s.replies ++ [.faulted (faultRecord w r s)] := rfl
@[simp] theorem takeFault_freeDraws (w : Option Word) (r : Raise) (s : State) :
    (takeFault w r s).freeDraws = s.freeDraws + 1 := rfl

/-! ## loadState -/

@[simp] theorem loadState_cfg (image : List Word) (s : State) : (loadState image s).cfg = s.cfg := rfl
@[simp] theorem loadState_mem (image : List Word) (s : State) : (loadState image s).mem = Memory.ofImage image := rfl
@[simp] theorem loadState_pc (image : List Word) (s : State) : (loadState image s).pc = 0#64 := rfl
@[simp] theorem loadState_rb (image : List Word) (s : State) : (loadState image s).rb = 0#64 := rfl
@[simp] theorem loadState_state (image : List Word) (s : State) : (loadState image s).state = .running := rfl
@[simp] theorem loadState_iq (image : List Word) (s : State) : (loadState image s).iq = [] := rfl
@[simp] theorem loadState_oq (image : List Word) (s : State) : (loadState image s).oq = [] := rfl
@[simp] theorem loadState_busy (image : List Word) (s : State) : (loadState image s).busy = false := rfl
@[simp] theorem loadState_steps (image : List Word) (s : State) : (loadState image s).steps = 0 := rfl
@[simp] theorem loadState_fault (image : List Word) (s : State) : (loadState image s).fault = none := rfl
@[simp] theorem loadState_commands (image : List Word) (s : State) : (loadState image s).commands = s.commands := rfl
@[simp] theorem loadState_replies (image : List Word) (s : State) : (loadState image s).replies = s.replies := rfl
@[simp] theorem loadState_freeDraws (image : List Word) (s : State) : (loadState image s).freeDraws = s.freeDraws := rfl

end Sys2Proof.Machine
end

