-- ==== Sys2Proof/Laws/Operands.lean ====
section
/-! SUPPORT. One lemma for each shared operation that says once everything it can do, in the terms of
Sys2Proof/Safety.lean: memory reads, the two operand resolutions, the ALU result rule, and the two shapes that several
instructions share. -/

namespace Sys2Proof.Machine

/-! ## What a zero-fill extension leaves alone -/

theorem Memory.touchAll_append (m : Memory) (a b : List Nat) :
    (m.touchAll a).touchAll b = m.touchAll (a ++ b) := (List.foldl_append).symm

theorem Memory.touch_eq_touchAll (m : Memory) (a : Nat) : m.touch a = m.touchAll [a] := rfl

@[simp] theorem State.setMem_setMem (s : State) (m m' : Memory) : (s.setMem m).setMem m' = s.setMem m' := rfl

variable (i : ParamIndex) (m : Mode) (s : State) (cells : List Nat)

@[simp] theorem paramCell_setMem (mem' : Memory) : paramCell i (s.setMem mem') = paramCell i s := rfl

@[simp] theorem paramWord_touched : paramWord i (s.setMem (s.mem.touchAll cells)) = paramWord i s := by
  simp [paramWord]

@[simp] theorem operandAddress_touched :
    operandAddress i m (s.setMem (s.mem.touchAll cells)) = operandAddress i m s := by
  simp [operandAddress, effectiveAddress]

@[simp] theorem operandValue_touched :
    operandValue i m (s.setMem (s.mem.touchAll cells)) = operandValue i m s := by
  simp [operandValue]

@[simp] theorem operandInt_touched :
    operandInt i m (s.setMem (s.mem.touchAll cells)) = operandInt i m s := by
  simp [operandInt]

@[simp] theorem writeTarget_touched :
    writeTarget i m (s.setMem (s.mem.touchAll cells)) = writeTarget i m s := by
  simp [writeTarget]

@[simp] theorem readCells_touched :
    readCells i m (s.setMem (s.mem.touchAll cells)) = readCells i m s := by
  simp [readCells]

@[simp] theorem readFault_touched :
    readFault i m (s.setMem (s.mem.touchAll cells)) = readFault i m s := by
  simp [readFault]

@[simp] theorem writeFault_touched :
    writeFault i m (s.setMem (s.mem.touchAll cells)) = writeFault i m s := by
  simp [writeFault]

/-! ## Access -/

/-- `MemRead` (R32, R33): the fault of its address, or the cell's value with the extension made. -/
theorem memRead_spec (p : Option ParamIndex) (a : Int) :
    memRead p a s =
      match accessFault s.cfg p a with
      | some r => .error r
      | none => .ok (s.mem.read a.toNat, s.setMem (s.mem.touch a.toNat)) := by
  unfold memRead checkAddress accessFault
  by_cases h1 : a < 0
  · simp only [if_pos h1]
  · by_cases h2 : (s.cfg.memLimit : Int) ≤ a
    · simp only [if_neg h1, if_pos h2]
    · simp only [if_neg h1, if_neg h2]

/-- An address has no fault exactly when it lies in the memory (R30, R32). -/
theorem accessFault_eq_none_iff (cfg : Config) (p : Option ParamIndex) (a : Int) :
    accessFault cfg p a = none ↔ addressExists cfg a = true := by
  unfold accessFault addressExists
  by_cases h1 : a < 0
  · simp [h1]
  · by_cases h2 : (cfg.memLimit : Int) ≤ a
    · simp [h1, h2]
    · simp [h1, h2]; omega

/-- The checks of a write target (R54). -/
theorem checkTarget_spec (a : Int) :
    checkTarget i a s =
      match accessFault s.cfg (some i) a with
      | some r => .error r
      | none => .ok (a.toNat, s) := by
  unfold checkTarget checkAddress accessFault
  by_cases h1 : a < 0
  · simp only [if_pos h1]
  · by_cases h2 : (s.cfg.memLimit : Int) ≤ a
    · simp only [if_neg h1, if_pos h2]
    · simp only [if_neg h1, if_neg h2]

/-- The fetch of a parameter word (R52): beyond `MEM_LIMIT` it faults, and it faults in no other way. -/
theorem fetchParam_spec :
    fetchParam i s =
      if s.cfg.memLimit ≤ paramCell i s then .error ⟨.memoryExhausted, some i, (paramCell i s : Int)⟩
      else .ok (paramWord i s, s.setMem (s.mem.touchAll [paramCell i s])) := by
  have ha : paramAddress i s = (paramCell i s : Int) := by simp [paramAddress, paramCell]
  unfold fetchParam
  rw [memRead_spec, ha]
  unfold accessFault
  rw [if_neg (by omega)]
  by_cases h : s.cfg.memLimit ≤ paramCell i s
  · rw [if_pos (by exact_mod_cast h), if_pos h]
  · rw [if_neg (by exact_mod_cast h), if_neg h]
    rfl

/-! ## Operands -/

/-- `ReadParam(i)` (R53, R88): its first fault, or the operand's value with the extensions of its accesses made. -/
theorem readParam_spec :
    readParam i m s =
      match readFault i m s with
      | some r => .error r
      | none => .ok (operandValue i m s, s.setMem (s.mem.touchAll (readCells i m s))) := by
  have haddr : effectiveAddress m (s.setMem (s.mem.touchAll [paramCell i s])) (paramWord i s)
      = operandAddress i m s := by simp [operandAddress, effectiveAddress]
  unfold readParam readFault
  rw [fetchParam_spec]
  by_cases h : s.cfg.memLimit ≤ paramCell i s
  · simp only [if_pos h]
  · simp only [if_neg h]
    cases m <;> simp only [haddr, memRead_spec, invalidMode, State.setMem_cfg] <;>
      first
        | rfl
        | (cases accessFault s.cfg (some i) _ <;>
            simp [operandValue, readCells, Memory.touch_eq_touchAll, Memory.touchAll_append])

/-- `WriteAddr(i)` (R54, R88): its first fault, or the target's address, the target untouched. -/
theorem writeAddr_spec :
    writeAddr i m s =
      match writeFault i m s with
      | some r => .error r
      | none => .ok (writeTarget i m s, s.setMem (s.mem.touchAll [paramCell i s])) := by
  have haddr : effectiveAddress m (s.setMem (s.mem.touchAll [paramCell i s])) (paramWord i s)
      = operandAddress i m s := by simp [operandAddress, effectiveAddress]
  unfold writeAddr writeFault
  rw [fetchParam_spec]
  by_cases h : s.cfg.memLimit ≤ paramCell i s
  · simp only [if_pos h]
  · simp only [if_neg h]
    cases m <;> simp only [haddr, checkTarget_spec, invalidMode, State.setMem_cfg] <;> rfl

/-- A parameter is readable exactly when it has no fault. -/
theorem readFault_eq_none_iff : readFault i m s = none ↔ readable i m s = true := by
  unfold readFault readable
  by_cases h : s.cfg.memLimit ≤ paramCell i s
  · simp [h]
  · cases m <;> simp [h, Nat.lt_of_not_le h, Mode.legalRead, accessFault_eq_none_iff]

/-- A parameter is writable exactly when it has no fault. -/
theorem writeFault_eq_none_iff : writeFault i m s = none ↔ writable i m s = true := by
  unfold writeFault writable
  by_cases h : s.cfg.memLimit ≤ paramCell i s
  · simp [h]
  · cases m <;> simp [h, Nat.lt_of_not_le h, Mode.legalWrite, accessFault_eq_none_iff]

/-! ## The ALU result rule -/

/-- `AluResult` (R63): the fault of the result, or the word that is stored. -/
theorem aluResult_spec (cfg : Config) (r : Int) :
    aluResult cfg r =
      match overflowFault cfg r with
      | some e => .error e
      | none => .ok (wrap64 r) := by
  unfold aluResult overflowFault storable
  cases inI64 r <;> cases cfg.overflowPolicy <;> rfl

/-- In range, the word stored is the exact result (R63, R66). -/
theorem toInt_wrap64 {r : Int} (h : inI64 r = true) : (wrap64 r).toInt = r := by
  simp only [inI64, Bool.and_eq_true, decide_eq_true_eq] at h
  unfold wrap64
  rw [BitVec.toInt_ofInt, Int.bmod_def]
  split <;> omega

/-! ## The shared shapes -/

/-- The shape of opcodes 1, 2, 7 and 8: the first fault in the order of R88, or the result stored and the pc moved on
by 4. -/
theorem computeAndStore_spec (m1 m2 m3 : Mode) (op : Config → Int → Int → Except Raise Word) :
    computeAndStore m1 m2 m3 op s =
      match (twoReadsFault m1 m2 s).or (writeFault .third m3 s) with
      | some r => .error r
      | none =>
        match op s.cfg (operandInt .first m1 s) (operandInt .second m2 s) with
        | .error r => .error r
        | .ok w => .ok ((s.setMem ((s.mem.touchAll
            (readCells .first m1 s ++ readCells .second m2 s ++ [paramCell .third s])).write
              (writeTarget .third m3 s) w)).advance 4) := by
  unfold computeAndStore twoReadsFault
  rw [readParam_spec]
  cases readFault .first m1 s with
  | some r => rfl
  | none =>
    simp only [Option.none_or, bind, Except.bind]
    rw [readParam_spec]
    simp only [readFault_touched, operandValue_touched, readCells_touched, State.setMem_setMem, State.setMem_mem,
      Memory.touchAll_append]
    cases readFault .second m2 s with
    | some r => rfl
    | none =>
      simp only [Option.none_or]
      rw [writeAddr_spec]
      simp only [writeFault_touched, writeTarget_touched, paramCell_setMem, State.setMem_setMem, State.setMem_mem,
        Memory.touchAll_append]
      cases writeFault .third m3 s with
      | some r => rfl
      | none =>
        simp only [State.setMem_cfg, show (operandValue .first m1 s).toInt = operandInt .first m1 s from rfl,
          show (operandValue .second m2 s).toInt = operandInt .second m2 s from rfl]
        cases op s.cfg (operandInt .first m1 s) (operandInt .second m2 s) <;> rfl

/-- The shape of opcodes 5 and 6: both parameters resolve, then the jump is taken or not. -/
theorem conditionalJump_spec (m1 m2 : Mode) (taken : Int → Bool) :
    conditionalJump m1 m2 taken s =
      match twoReadsFault m1 m2 s with
      | some r => .error r
      | none =>
        match jumpFault (taken (operandInt .first m1 s)) (operandInt .second m2 s) with
        | some r => .error r
        | none => .ok ((s.setMem (s.mem.touchAll (readCells .first m1 s ++ readCells .second m2 s))).setPc
            (if taken (operandInt .first m1 s) then operandValue .second m2 s else s.pc + 3#64)) := by
  unfold conditionalJump twoReadsFault
  rw [readParam_spec]
  cases readFault .first m1 s with
  | some r => rfl
  | none =>
    simp only [Option.none_or, bind, Except.bind]
    rw [readParam_spec]
    simp only [readFault_touched, operandValue_touched, readCells_touched, State.setMem_setMem, State.setMem_mem,
      Memory.touchAll_append]
    cases readFault .second m2 s with
    | some r => rfl
    | none =>
      simp only [jumpFault, operandInt]
      by_cases ht : taken (operandValue .first m1 s).toInt = true
      · by_cases h : (operandValue .second m2 s).toInt < 0
        · simp [ht, h]; rfl
        · simp [ht, h]; rfl
      · simp [ht]; rfl

/-- OUT (R68). -/
theorem outputValue_spec (m1 : Mode) :
    outputValue m1 s =
      match readFault .first m1 s with
      | some r => .error r
      | none => .ok (((s.setMem (s.mem.touchAll (readCells .first m1 s))).pushOutput
          (operandValue .first m1 s)).advance 2) := by
  unfold outputValue
  rw [readParam_spec]
  cases readFault .first m1 s <;> rfl

/-- IN with a value queued (R67). -/
theorem inputValue_spec (m1 : Mode) (v : Word) (rest : List Word) :
    inputValue m1 v rest s =
      match writeFault .first m1 s with
      | some r => .error r
      | none => .ok (((s.setIq rest).setMem ((s.mem.touchAll [paramCell .first s]).write
          (writeTarget .first m1 s) v)).advance 2) := by
  unfold inputValue
  rw [writeAddr_spec]
  cases writeFault .first m1 s <;> rfl

/-- ARB (R74). -/
theorem adjustBase_spec (m1 : Mode) :
    adjustBase m1 s =
      match (readFault .first m1 s).or (overflowFault s.cfg (s.rb.toInt + operandInt .first m1 s)) with
      | some r => .error r
      | none => .ok (((s.setMem (s.mem.touchAll (readCells .first m1 s))).setRb
          (wrap64 (s.rb.toInt + operandInt .first m1 s))).advance 2) := by
  unfold adjustBase
  rw [readParam_spec]
  cases readFault .first m1 s with
  | some r => rfl
  | none =>
    simp only [Option.none_or, bind, Except.bind, aluResult_spec, State.setMem_cfg, State.setMem_rb]
    simp only [show (operandValue .first m1 s).toInt = operandInt .first m1 s from rfl]
    cases overflowFault s.cfg (s.rb.toInt + operandInt .first m1 s) <;> rfl

end Sys2Proof.Machine
end

