-- ==== Sys2Proof/Laws/Exec.lean ====
section
/-! SUPPORT. One spec lemma per instruction: its outcome as the first fault of R88, taken, or the state its
pseudocode leaves. The state-level shapes come from Sys2Proof/Laws/Operands.lean. -/

namespace Sys2Proof.Machine

/-- The state in which an instruction that faults with `r` ends. -/
abbrev faulting (r : Raise) (s : State) : State := takeFault (some (s.mem.read s.pc.toNat)) r s

/-- The state after opcodes 1, 2, 7 and 8 have stored `w`. -/
abbrev stored (m1 m2 m3 : Mode) (w : Word) (s : State) : State :=
  (s.setMem ((s.mem.touchAll (readCells .first m1 s ++ readCells .second m2 s ++ [paramCell .third s])).write
    (writeTarget .third m3 s) w)).advance 4

/-- The state after opcodes 5 and 6. -/
abbrev jumped (m1 m2 : Mode) (taken : Bool) (s : State) : State :=
  (s.setMem (s.mem.touchAll (readCells .first m1 s ++ readCells .second m2 s))).setPc
    (if taken then operandValue .second m2 s else s.pc + 3#64)

variable (m1 m2 m3 : Mode) (s : State)

theorem exec_add_spec :
    exec (.add m1 m2 m3) s = .next
      (match firstFault (.add m1 m2 m3) s with
       | some r => faulting r s
       | none => stored m1 m2 m3 (wrap64 (operandInt .first m1 s + operandInt .second m2 s)) s) := by
  simp only [exec, execAdd, computeAndStore_spec, aluResult_spec, firstFault]
  cases (twoReadsFault m1 m2 s).or (writeFault .third m3 s) with
  | some r => rfl
  | none =>
    simp only [Option.none_or]
    cases overflowFault s.cfg (operandInt .first m1 s + operandInt .second m2 s) <;> rfl

theorem exec_mul_spec :
    exec (.mul m1 m2 m3) s = .next
      (match firstFault (.mul m1 m2 m3) s with
       | some r => faulting r s
       | none => stored m1 m2 m3 (wrap64 (operandInt .first m1 s * operandInt .second m2 s)) s) := by
  simp only [exec, execMul, computeAndStore_spec, aluResult_spec, firstFault]
  cases (twoReadsFault m1 m2 s).or (writeFault .third m3 s) with
  | some r => rfl
  | none =>
    simp only [Option.none_or]
    cases overflowFault s.cfg (operandInt .first m1 s * operandInt .second m2 s) <;> rfl

theorem exec_lt_spec :
    exec (.lt m1 m2 m3) s = .next
      (match firstFault (.lt m1 m2 m3) s with
       | some r => faulting r s
       | none => stored m1 m2 m3
           (truthWord (decide (operandInt .first m1 s < operandInt .second m2 s))) s) := by
  simp only [exec, execLt, computeAndStore_spec, firstFault]
  cases (twoReadsFault m1 m2 s).or (writeFault .third m3 s) <;> rfl

theorem exec_eq_spec :
    exec (.eq m1 m2 m3) s = .next
      (match firstFault (.eq m1 m2 m3) s with
       | some r => faulting r s
       | none => stored m1 m2 m3
           (truthWord (decide (operandInt .first m1 s = operandInt .second m2 s))) s) := by
  simp only [exec, execEq, computeAndStore_spec, firstFault]
  cases (twoReadsFault m1 m2 s).or (writeFault .third m3 s) <;> rfl

theorem exec_jt_spec :
    exec (.jt m1 m2) s = .next
      (match firstFault (.jt m1 m2) s with
       | some r => faulting r s
       | none => jumped m1 m2 (decide (operandInt .first m1 s ≠ 0)) s) := by
  simp only [exec, execJt, conditionalJump_spec, firstFault]
  cases twoReadsFault m1 m2 s with
  | some r => rfl
  | none =>
    simp only [Option.none_or]
    cases jumpFault (decide (operandInt .first m1 s ≠ 0)) (operandInt .second m2 s) <;> rfl

theorem exec_jf_spec :
    exec (.jf m1 m2) s = .next
      (match firstFault (.jf m1 m2) s with
       | some r => faulting r s
       | none => jumped m1 m2 (decide (operandInt .first m1 s = 0)) s) := by
  simp only [exec, execJf, conditionalJump_spec, firstFault]
  cases twoReadsFault m1 m2 s with
  | some r => rfl
  | none =>
    simp only [Option.none_or]
    cases jumpFault (decide (operandInt .first m1 s = 0)) (operandInt .second m2 s) <;> rfl

/-- With an empty input queue, Input suspends and does nothing else (R67, D11). -/
theorem exec_inp_empty_spec (h : s.iq = []) :
    exec (.inp m1) s = .next (s.setRunState .awaitingInput) := by
  simp only [exec, execInp, h]

theorem exec_inp_spec {v : Word} {rest : List Word} (h : s.iq = v :: rest) :
    exec (.inp m1) s = .next
      (match firstFault (.inp m1) s with
       | some r => faulting r s
       | none => ((s.setIq rest).setMem ((s.mem.touchAll [paramCell .first s]).write
           (writeTarget .first m1 s) v)).advance 2) := by
  simp only [exec, execInp, h, inputValue_spec, firstFault, reduceCtorEq, if_false]
  cases writeFault .first m1 s <;> rfl

theorem exec_out_spec :
    exec (.out m1) s = .next
      (match firstFault (.out m1) s with
       | some r => faulting r s
       | none => ((s.setMem (s.mem.touchAll (readCells .first m1 s))).pushOutput
           (operandValue .first m1 s)).advance 2) := by
  simp only [exec, execOut, outputValue_spec, firstFault]
  cases readFault .first m1 s <;> rfl

theorem exec_arb_spec :
    exec (.arb m1) s = .next
      (match firstFault (.arb m1) s with
       | some r => faulting r s
       | none => ((s.setMem (s.mem.touchAll (readCells .first m1 s))).setRb
           (wrap64 (s.rb.toInt + operandInt .first m1 s))).advance 2) := by
  simp only [exec, execArb, adjustBase_spec, firstFault]
  cases (readFault .first m1 s).or (overflowFault s.cfg (s.rb.toInt + operandInt .first m1 s)) <;> rfl

theorem exec_hlt_spec : exec .hlt s = .next (s.setRunState .halted) := rfl

/-! ## Every instruction at once -/

/-- The pc after an instruction that completes (R14). -/
def nextPc (i : Instr) (s : State) : Word :=
  match i with
  | .jt m1 m2 => if operandInt .first m1 s ≠ 0 then operandValue .second m2 s else s.pc + 3#64
  | .jf m1 m2 => if operandInt .first m1 s = 0 then operandValue .second m2 s else s.pc + 3#64
  | .inp _ => if s.iq = [] then s.pc else s.pc + 2#64
  | .hlt => s.pc
  | .add _ _ _ => s.pc + 4#64
  | .mul _ _ _ => s.pc + 4#64
  | .lt _ _ _ => s.pc + 4#64
  | .eq _ _ _ => s.pc + 4#64
  | .out _ => s.pc + 2#64
  | .arb _ => s.pc + 2#64

/-- `rb` after an instruction that completes (R15). -/
def nextRb (i : Instr) (s : State) : Word :=
  match i with
  | .arb m1 => wrap64 (s.rb.toInt + operandInt .first m1 s)
  | _ => s.rb

/-- The input queue after an instruction that completes (R22). -/
def nextIq (i : Instr) (s : State) : List Word :=
  match i with
  | .inp _ => s.iq.tail
  | _ => s.iq

/-- The output queue after an instruction that completes (R22). -/
def nextOq (i : Instr) (s : State) : List Word :=
  match i with
  | .out m1 => s.oq ++ [operandValue .first m1 s]
  | _ => s.oq

/-- The run state after an instruction that completes, halts or suspends (R16). -/
def nextRunState (i : Instr) (s : State) : RunState :=
  match i with
  | .hlt => .halted
  | .inp _ => if s.iq = [] then .awaitingInput else s.state
  | _ => s.state

/-- The memory after an instruction that completes: the accessed cells exist, and the stored word stands (R36). -/
def nextMem (i : Instr) (s : State) : Memory :=
  match storedWord i s with
  | none => s.mem.touchAll (accessedCells i s)
  | some (c, w) => (s.mem.touchAll (accessedCells i s)).write c w

/-- The state after an instruction that does not fault. -/
def completed (i : Instr) (s : State) : State :=
  { s with
    mem := nextMem i s
    pc := nextPc i s
    rb := nextRb i s
    state := nextRunState i s
    iq := nextIq i s
    oq := nextOq i s }

/-- Writing a cell makes the extension of its own access. -/
theorem Memory.write_touch (m : Memory) (a : Nat) (v : Word) : (m.touch a).write a v = m.write a v := by
  have h : ((m.touch a).touch a).extent = (m.touch a).extent := by
    rw [Memory.extent_touch, Memory.extent_touch]; omega
  unfold Memory.write
  rw [Memory.cells_touch]
  exact congrArg (Memory.mk _) h

theorem Memory.write_touchAll_snoc (m : Memory) (cells : List Nat) (a : Nat) (v : Word) :
    (m.touchAll (cells ++ [a])).write a v = (m.touchAll cells).write a v := by
  rw [← Memory.touchAll_append]
  exact Memory.write_touch _ a v

/-- The cells of R36 in the shape the spec lemmas have them. -/
theorem snoc_pair (l : List Nat) (p c : Nat) : l ++ [p, c] = (l ++ [p]) ++ [c] := by simp

/-- Every instruction's outcome: its first fault (R88), taken, or the completed state. -/
theorem exec_spec (i : Instr) (s : State) :
    exec i s = .next
      (match firstFault i s with
       | some r => faulting r s
       | none => completed i s) := by
  cases i with
  | add m1 m2 m3 =>
    rw [exec_add_spec]
    cases firstFault (.add m1 m2 m3) s with
    | some r => rfl
    | none => simp only [completed, nextMem, storedWord, accessedCells, snoc_pair, Memory.write_touchAll_snoc]; rfl
  | mul m1 m2 m3 =>
    rw [exec_mul_spec]
    cases firstFault (.mul m1 m2 m3) s with
    | some r => rfl
    | none => simp only [completed, nextMem, storedWord, accessedCells, snoc_pair, Memory.write_touchAll_snoc]; rfl
  | lt m1 m2 m3 =>
    rw [exec_lt_spec]
    cases firstFault (.lt m1 m2 m3) s with
    | some r => rfl
    | none =>
      simp only [completed, nextMem, storedWord, accessedCells, snoc_pair, Memory.write_touchAll_snoc, truthWord,
        decide_eq_true_eq]
      rfl
  | eq m1 m2 m3 =>
    rw [exec_eq_spec]
    cases firstFault (.eq m1 m2 m3) s with
    | some r => rfl
    | none =>
      simp only [completed, nextMem, storedWord, accessedCells, snoc_pair, Memory.write_touchAll_snoc, truthWord,
        decide_eq_true_eq]
      rfl
  | inp m1 =>
    cases hq : s.iq with
    | nil =>
      rw [exec_inp_empty_spec m1 s hq]
      simp [firstFault, completed, nextMem, storedWord, accessedCells, nextPc, nextRb, nextIq, nextOq, nextRunState, hq,
        State.setRunState, Memory.touchAll]
    | cons v rest =>
      rw [exec_inp_spec m1 s hq]
      cases firstFault (.inp m1) s with
      | some r => rfl
      | none =>
        simp only [completed, nextMem, storedWord, accessedCells, nextPc, nextRb, nextIq, nextOq, nextRunState, hq,
          List.head?_cons, Option.map_some, reduceCtorEq, if_false, List.tail_cons,
          show [paramCell .first s, writeTarget .first m1 s] = [paramCell .first s] ++ [writeTarget .first m1 s] from rfl,
          Memory.write_touchAll_snoc]
        rfl
  | out m1 => rw [exec_out_spec]; cases firstFault (.out m1) s <;> rfl
  | jt m1 m2 =>
    rw [exec_jt_spec]
    cases firstFault (.jt m1 m2) s with
    | some r => rfl
    | none => simp only [jumped, decide_eq_true_eq]; rfl
  | jf m1 m2 =>
    rw [exec_jf_spec]
    cases firstFault (.jf m1 m2) s with
    | some r => rfl
    | none => simp only [jumped, decide_eq_true_eq]; rfl
  | arb m1 => rw [exec_arb_spec]; cases firstFault (.arb m1) s <;> rfl
  | hlt => rfl

/-! ### A zero-fill extension before the instruction changes none of this -/

@[simp] theorem firstFault_touched (i : Instr) (s : State) (cells : List Nat) :
    firstFault i (s.setMem (s.mem.touchAll cells)) = firstFault i s := by
  cases i <;> simp [firstFault, twoReadsFault]

@[simp] theorem accessedCells_touched (i : Instr) (s : State) (cells : List Nat) :
    accessedCells i (s.setMem (s.mem.touchAll cells)) = accessedCells i s := by
  cases i <;> simp [accessedCells]

@[simp] theorem storedWord_touched (i : Instr) (s : State) (cells : List Nat) :
    storedWord i (s.setMem (s.mem.touchAll cells)) = storedWord i s := by
  cases i <;> simp [storedWord]

@[simp] theorem nextPc_touched (i : Instr) (s : State) (cells : List Nat) :
    nextPc i (s.setMem (s.mem.touchAll cells)) = nextPc i s := by
  cases i <;> first | rfl | simp [nextPc]

@[simp] theorem nextRb_touched (i : Instr) (s : State) (cells : List Nat) :
    nextRb i (s.setMem (s.mem.touchAll cells)) = nextRb i s := by
  cases i <;> simp [nextRb]

@[simp] theorem nextOq_touched (i : Instr) (s : State) (cells : List Nat) :
    nextOq i (s.setMem (s.mem.touchAll cells)) = nextOq i s := by
  cases i <;> simp [nextOq]

@[simp] theorem nextIq_touched (i : Instr) (s : State) (cells : List Nat) :
    nextIq i (s.setMem (s.mem.touchAll cells)) = nextIq i s := by
  cases i <;> simp [nextIq]

@[simp] theorem nextRunState_touched (i : Instr) (s : State) (cells : List Nat) :
    nextRunState i (s.setMem (s.mem.touchAll cells)) = nextRunState i s := by
  cases i <;> rfl

/-- What an instruction that answers `t` did. -/
theorem exec_cases {i : Instr} {s t : State} (h : exec i s = .next t) :
    (∃ r, firstFault i s = some r ∧ t = faulting r s) ∨ (firstFault i s = none ∧ t = completed i s) := by
  rw [exec_spec, Host.Outcome.next.injEq] at h
  subst h
  cases firstFault i s with
  | some r => exact Or.inl ⟨r, rfl, rfl⟩
  | none => exact Or.inr ⟨rfl, rfl⟩

end Sys2Proof.Machine
end

