-- ==== Sys2Proof/Laws/PerInstr.lean ====
section
/-! SUPPORT. What holds of every instruction as syntax, one lemma per constructor: the family `CanonicalWord`, which
says that the canonical word (30_encoding.md R59) has five decimal digits at most, so that nothing is lost in the
64-bit cell, and that its two low digits are the opcode (R47, R48). -/

namespace Sys2Proof

theorem Mode.digit_le (m : Mode) : m.digit ≤ 9 := by
  cases m with
  | position => decide
  | immediate => decide
  | relative => decide
  | undefined k => have := k.isLt; simp only [Mode.digit]; omega

/-- The mode a mode's digit names is that mode. -/
theorem modeOfDigit_digit (m : Mode) : modeOfDigit m.digit = m := by
  cases m with
  | position => rfl
  | immediate => rfl
  | relative => rfl
  | undefined k => revert k; decide

/-- The digit of the mode a digit names is that digit. -/
theorem digit_modeOfDigit {d : Nat} (h : d ≤ 9) : (modeOfDigit d).digit = d := by
  have all : ∀ k : Fin 10, (modeOfDigit k.val).digit = k.val := by decide
  exact all ⟨d, by omega⟩

/-- The digit of the mode decoded for parameter `i` is the digit at position `i + 1` (R49). -/
theorem digit_paramMode (n i : Nat) : (paramMode n i).digit = n / 10 ^ (i + 1) % 10 :=
  digit_modeOfDigit (by unfold digit; omega)

/-- A parameter whose digit is `m`'s has mode `m`. -/
theorem paramMode_eq {n i : Nat} {m : Mode} (h : n / 10 ^ (i + 1) % 10 = m.digit) : paramMode n i = m := by
  unfold paramMode digit
  rw [h, modeOfDigit_digit]

/-- A canonical number is below 100000 and keeps its opcode in its two low digits. -/
theorem canonicalNumber_bounds (op : Nat) (m1 m2 m3 : Mode) (h : op < 100) :
    canonicalNumber op m1 m2 m3 < 100000 ∧ canonicalNumber op m1 m2 m3 % 100 = op := by
  have h1 := m1.digit_le
  have h2 := m2.digit_le
  have h3 := m3.digit_le
  unfold canonicalNumber
  omega

end Sys2Proof

namespace Sys2Proof.Laws.CanonicalWord

/-- The canonical word is the canonical number, of five digits at most, and its two low digits are the opcode. -/
def Statement (i : Instr) : Prop :=
  (encode i).toNat = i.canonical ∧ i.canonical < 100000 ∧ i.canonical % 100 = i.opcode

theorem of_bounds {i : Instr} (h : i.canonical < 100000 ∧ i.canonical % 100 = i.opcode) : Statement i :=
  ⟨by unfold encode; rw [BitVec.toNat_ofNat]; exact Nat.mod_eq_of_lt (by omega), h⟩

theorem add (m1 m2 m3 : Mode) : Statement (.add m1 m2 m3) :=
  of_bounds (canonicalNumber_bounds 1 m1 m2 m3 (by decide))

theorem mul (m1 m2 m3 : Mode) : Statement (.mul m1 m2 m3) :=
  of_bounds (canonicalNumber_bounds 2 m1 m2 m3 (by decide))

theorem inp (m1 : Mode) : Statement (.inp m1) :=
  of_bounds (canonicalNumber_bounds 3 m1 .position .position (by decide))

theorem out (m1 : Mode) : Statement (.out m1) :=
  of_bounds (canonicalNumber_bounds 4 m1 .position .position (by decide))

theorem jt (m1 m2 : Mode) : Statement (.jt m1 m2) :=
  of_bounds (canonicalNumber_bounds 5 m1 m2 .position (by decide))

theorem jf (m1 m2 : Mode) : Statement (.jf m1 m2) :=
  of_bounds (canonicalNumber_bounds 6 m1 m2 .position (by decide))

theorem lt (m1 m2 m3 : Mode) : Statement (.lt m1 m2 m3) :=
  of_bounds (canonicalNumber_bounds 7 m1 m2 m3 (by decide))

theorem eq (m1 m2 m3 : Mode) : Statement (.eq m1 m2 m3) :=
  of_bounds (canonicalNumber_bounds 8 m1 m2 m3 (by decide))

theorem arb (m1 : Mode) : Statement (.arb m1) :=
  of_bounds (canonicalNumber_bounds 9 m1 .position .position (by decide))

theorem hlt : Statement .hlt :=
  of_bounds (canonicalNumber_bounds 99 .position .position .position (by decide))

end Sys2Proof.Laws.CanonicalWord
end

