-- ==== Sys2Proof/Laws/Step.lean ====
section
/-! SUPPORT. What one step of the machine can do, said once. -/

namespace Sys2Proof.Machine

/-- The state in which the fetched instruction executes: the fetch has made its extension (R60). -/
abbrev fetched (s : State) : State := s.setMem (s.mem.touch s.pc.toNat)

/-- The instruction fetch (R60): beyond `MEM_LIMIT` it faults, and in no other way. -/
theorem fetchWord_spec (s : State) :
    fetchWord s =
      if s.cfg.memLimit ≤ s.pc.toNat then .error ⟨.memoryExhausted, none, (s.pc.toNat : Int)⟩
      else .ok (s.mem.read s.pc.toNat, fetched s) := by
  unfold fetchWord
  rw [memRead_spec]
  unfold accessFault
  rw [if_neg (by omega)]
  by_cases h : s.cfg.memLimit ≤ s.pc.toNat
  · rw [if_pos (by exact_mod_cast h), if_pos h]
  · rw [if_neg (by exact_mod_cast h), if_neg h]
    rfl

/-- Every instruction has a next state: no instruction is a stop (R88: a fault is taken, not a stop of the model). -/
theorem exec_answers_next (i : Instr) (s : State) : ∃ t, exec i s = .next t := ⟨_, exec_spec i s⟩

/-- All that a step which answers a next state can be: a spent budget, a faulting fetch, an illegal word, an
instruction, or a host command. -/
theorem step_cases {s t : State} (h : step s = .next t) :
    (s.busy = true ∧ s.state = .running ∧ budgetSpent s = true ∧
      t = takeFault none ⟨.stepLimitExceeded, none, (s.steps : Int)⟩ s) ∨
    (s.busy = true ∧ s.state = .running ∧ budgetSpent s = false ∧ s.cfg.memLimit ≤ s.pc.toNat ∧
      t = takeFault none ⟨.memoryExhausted, none, (s.pc.toNat : Int)⟩ s) ∨
    (s.busy = true ∧ s.state = .running ∧ budgetSpent s = false ∧ s.pc.toNat < s.cfg.memLimit ∧
      (∃ e, decode (s.mem.read s.pc.toNat) = .error e) ∧
      t = takeFault (some (s.mem.read s.pc.toNat)) (invalidOpcode (s.mem.read s.pc.toNat)) (fetched s)) ∨
    (s.busy = true ∧ s.state = .running ∧ budgetSpent s = false ∧ s.pc.toNat < s.cfg.memLimit ∧
      ∃ i u, decode (s.mem.read s.pc.toNat) = .ok i ∧ exec i (fetched s) = .next u ∧ t = loopTail u) ∨
    (s.busy = false ∧ ∃ c rest, s.commands = c :: rest ∧
      hostCommand c { s with commands := rest } = .next t) := by
  unfold step engineStep at h
  cases hb : s.busy with
  | false =>
    simp only [hb, Bool.false_eq_true, if_false, idleStep] at h
    cases hc : s.commands with
    | nil => simp [hc] at h
    | cons c rest =>
      refine Or.inr (Or.inr (Or.inr (Or.inr ⟨rfl, c, rest, rfl, ?_⟩)))
      simpa [hc] using h
  | true =>
    by_cases hr : s.state = .running
    · simp only [hb, hr, if_true, loopPass] at h
      cases hs : budgetSpent s with
      | true => exact Or.inl ⟨rfl, hr, rfl, by simpa [hs] using h.symm⟩
      | false =>
        simp only [hs, Bool.false_eq_true, if_false, fetchAndExecute, fetchWord_spec] at h
        by_cases hl : s.cfg.memLimit ≤ s.pc.toNat
        · exact Or.inr (Or.inl ⟨rfl, hr, rfl, hl, by simpa [hl] using h.symm⟩)
        · simp only [if_neg hl] at h
          have hl' := Nat.lt_of_not_le hl
          cases hd : decode (s.mem.read s.pc.toNat) with
          | error e => exact Or.inr (Or.inr (Or.inl ⟨rfl, hr, rfl, hl', ⟨e, rfl⟩, by simpa [hd] using h.symm⟩))
          | ok i =>
            obtain ⟨u, hu⟩ := exec_answers_next i (fetched s)
            refine Or.inr (Or.inr (Or.inr (Or.inl ⟨rfl, hr, rfl, hl', i, u, rfl, hu, ?_⟩)))
            simpa [hd, hu, afterInstruction] using h.symm
    · simp [hb, hr] at h

/-! ## What the loop's tail leaves alone -/

@[simp] theorem loopTail_cfg (t : State) : (loopTail t).cfg = t.cfg := by
  unfold loopTail; split <;> rfl

@[simp] theorem loopTail_mem (t : State) : (loopTail t).mem = t.mem := by
  unfold loopTail; split <;> rfl

@[simp] theorem loopTail_pc (t : State) : (loopTail t).pc = t.pc := by
  unfold loopTail; split <;> rfl

@[simp] theorem loopTail_rb (t : State) : (loopTail t).rb = t.rb := by
  unfold loopTail; split <;> rfl

@[simp] theorem loopTail_state (t : State) : (loopTail t).state = t.state := by
  unfold loopTail; split <;> rfl

@[simp] theorem loopTail_iq (t : State) : (loopTail t).iq = t.iq := by
  unfold loopTail; split <;> rfl

@[simp] theorem loopTail_oq (t : State) : (loopTail t).oq = t.oq := by
  unfold loopTail; split <;> rfl

@[simp] theorem loopTail_fault (t : State) : (loopTail t).fault = t.fault := by
  unfold loopTail; split <;> rfl

@[simp] theorem loopTail_commands (t : State) : (loopTail t).commands = t.commands := by
  unfold loopTail; split <;> rfl

@[simp] theorem loopTail_freeDraws (t : State) : (loopTail t).freeDraws = t.freeDraws := by
  unfold loopTail; split <;> rfl

/-- A step of a busy engine that does not end in `Faulted` completed the instruction at the pc. -/
theorem step_unfaulted {s t : State} (hb : s.busy = true) (h : step s = .next t) (ht : t.safe = true) :
    s.state = .running ∧ budgetSpent s = false ∧ s.pc.toNat < s.cfg.memLimit ∧
      ∃ i, decode (s.mem.read s.pc.toNat) = .ok i ∧ firstFault i s = none ∧ t = loopTail (completed i (fetched s)) := by
  rcases step_cases h with h | h | h | ⟨_, hr, hs, hl, i, u, hd, hu, rfl⟩ | h
  · rw [h.2.2.2] at ht; cases ht
  · rw [h.2.2.2.2] at ht; cases ht
  · rw [h.2.2.2.2.2] at ht; cases ht
  · rcases exec_cases hu with ⟨r, _, rfl⟩ | ⟨hf, rfl⟩
    · cases ht
    · exact ⟨hr, hs, hl, i, hd, by rwa [fetched, Memory.touch_eq_touchAll, firstFault_touched] at hf, rfl⟩
  · rw [hb] at h; cases h.1

/-- A fetching engine whose pc lies in the memory runs the instruction that stands there. -/
theorem step_decoded {s : State} {i : Instr} (hf : fetching s = true) (hpc : s.pc.toNat < s.cfg.memLimit)
    (hd : decode (s.mem.read s.pc.toNat) = .ok i) : step s = afterInstruction (exec i (fetched s)) := by
  simp only [fetching, Bool.and_eq_true, decide_eq_true_eq, Bool.not_eq_true'] at hf
  simp [step, engineStep, hf, loopPass, fetchAndExecute, fetchWord_spec, Nat.not_le_of_lt hpc, hd]

/-- One more step of a run. -/
theorem runSteps_succ {s t : State} (h : step s = .next t) (k : Nat) : runSteps (k + 1) s = runSteps k t := by
  simp only [runSteps, h]

/-- An idle engine takes the host's next command. -/
theorem step_command {s : State} {c : Command} {rest : List Command} (hb : s.busy = false)
    (hc : s.commands = c :: rest) : step s = hostCommand c { s with commands := rest } := by
  simp [step, engineStep, hb, idleStep, hc]

end Sys2Proof.Machine
end

