-- ==== Sys2Proof/Machine/Assembly.lean ====
section
/-! DEFINITION. The assembly notation of the spec's own programs (30_encoding.md R61, R62; decision D22), as data: a
line with its operands, and the cells it stands for. It is outside the engine and part of no step (log entry 18). -/

namespace Sys2Proof.Machine

/-- An operand as written: `[v]`, `#v` or `[rb+v]` (R61). -/
inductive AsmOperand
  | cell (v : Word)
  | literal (v : Word)
  | based (v : Word)
deriving DecidableEq, Repr

/-- The mode an operand's writing names (R61). -/
def AsmOperand.mode : AsmOperand → Mode
  | .cell _ => .position
  | .literal _ => .immediate
  | .based _ => .relative

/-- The parameter word of an operand. -/
def AsmOperand.word : AsmOperand → Word
  | .cell v => v
  | .literal v => v
  | .based v => v

/-- A line: a mnemonic with its operands, or the `DATA` directive (R61). -/
inductive AsmLine
  | add (a b c : AsmOperand)
  | mul (a b c : AsmOperand)
  | inp (a : AsmOperand)
  | out (a : AsmOperand)
  | jt (a b : AsmOperand)
  | jf (a b : AsmOperand)
  | lt (a b c : AsmOperand)
  | eq (a b c : AsmOperand)
  | arb (a : AsmOperand)
  | hlt
  | data (words : List Word)
deriving DecidableEq, Repr

/-- The cells of an instruction line; none where "`#v` in a write position" makes it no legal line (R61). -/
def assembleInstr (i : Instr) (operands : List AsmOperand) : Option (List Word) :=
  if i.wellFormed then encodeCells i (operands.map AsmOperand.word) else none

/-- The cells of a line: the canonical word and the parameter words in order, or the data as written (R61). -/
def assembleLine : AsmLine → Option (List Word)
  | .add a b c => assembleInstr (.add a.mode b.mode c.mode) [a, b, c]
  | .mul a b c => assembleInstr (.mul a.mode b.mode c.mode) [a, b, c]
  | .inp a => assembleInstr (.inp a.mode) [a]
  | .out a => assembleInstr (.out a.mode) [a]
  | .jt a b => assembleInstr (.jt a.mode b.mode) [a, b]
  | .jf a b => assembleInstr (.jf a.mode b.mode) [a, b]
  | .lt a b c => assembleInstr (.lt a.mode b.mode c.mode) [a, b, c]
  | .eq a b c => assembleInstr (.eq a.mode b.mode c.mode) [a, b, c]
  | .arb a => assembleInstr (.arb a.mode) [a]
  | .hlt => assembleInstr .hlt []
  | .data words => some words

/-- The image of a program, its lines in order (R61). -/
def assemble : List AsmLine → Option (List Word)
  | [] => some []
  | line :: rest =>
    match assembleLine line, assemble rest with
    | some ws, some more => some (ws ++ more)
    | _, _ => none

end Sys2Proof.Machine
end

