-- ==== Sys2Proof/Tests/Slice0.lean ====
section
/-! SUPPORT. Small tests of the model. Every expected result is the spec's own: its vectors (95_test_vectors.md, V and
H numbers in the comments), the worked examples of its instruction rules, or its encoding rules read by hand. The
last part gives, for every statement with hypotheses, a concrete state and operands that meet them. -/

namespace Sys2Proof.Tests

open Sys2Proof Sys2Proof.Machine

/-! ## Builders -/

/-- An instance inside a `run`, with an image loaded, its pc and rb moved and inputs queued. -/
def midRun (cfg : Config) (image : List Int) (pc : Nat) (rb : Int) (input : List Int) : State :=
  { beginRun (newInstance cfg (image.map wrap64)) with
    pc := BitVec.ofNat 64 pc
    rb := wrap64 rb
    iq := input.map wrap64 }

/-- As `midRun`, from the load state, with no input and the reference parameters. -/
def begun (image : List Int) : State := midRun Config.reference image 0 0 []

/-- An idle instance in a given run state, with commands waiting. -/
def idleIn (r : RunState) (image : List Int) (commands : List Command) : State :=
  { newInstance Config.reference (image.map wrap64) with state := r, commands := commands }

def wrapping : Config := { Config.reference with overflowPolicy := .wrap }
def limited (n : Nat) : Config := { Config.reference with memLimit := n }
def budgeted (n : Nat) : Config := { Config.reference with stepBudget := some n }

/-- The outcome is a next state that passes the check. -/
def nextIs {α : Type} (o : Host.Outcome α Fault Refusal) (p : α → Bool) : Bool :=
  match o with
  | .next t => p t
  | .fault _ => false
  | .refused _ => false

theorem nextIs_next {α : Type} {o : Host.Outcome α Fault Refusal} {p : α → Bool} (h : nextIs o p = true) :
    ∃ t, o = .next t ∧ p t = true := by
  cases o with
  | next t => exact ⟨t, rfl, h⟩
  | fault r => simp [nextIs] at h
  | refused r => simp [nextIs] at h

/-- The outcome is this refusal. -/
def refuses {α : Type} (o : Host.Outcome α Fault Refusal) (r : Refusal) : Bool :=
  match o with
  | .next _ => false
  | .fault _ => false
  | .refused q => decide (q = r)

/-- One step faults, with this record (kind, code, pc, word, param, value). -/
def faultsWith (s : State) (kind : FaultKind) (code : Nat) (pc : Nat) (word : Option Int) (param : Option ParamIndex)
    (value : Int) : Bool :=
  nextIs (step s) (fun t => decide (t.state = .faulted) && decide (t.busy = false) &&
    decide (t.fault = some ⟨kind, code, BitVec.ofNat 64 pc, word.map wrap64, param, some value⟩))

/-- One step goes on `Running`, at this pc. -/
def goesOn (s : State) (pc : Nat) (p : State → Bool) : Bool :=
  nextIs (step s) (fun t => decide (t.state = .running) && decide (t.pc = BitVec.ofNat 64 pc) && p t)

def cellIs (t : State) (a : Nat) (v : Int) : Bool := decide (t.mem.read a = wrap64 v)

/-! ## Well-formedness: each check refuses an ill-formed term -/

theorem test_wf_accepts : (Instr.add .immediate .relative .position).wellFormed = true := by decide
theorem test_wf_add_p1 : (Instr.add (.undefined 0) .position .position).wellFormed = false := by decide
theorem test_wf_add_p2 : (Instr.add .position (.undefined 6) .position).wellFormed = false := by decide
theorem test_wf_add_p3 : (Instr.add .position .position .immediate).wellFormed = false := by decide
theorem test_wf_mul_p3 : (Instr.mul .position .position (.undefined 0)).wellFormed = false := by decide
theorem test_wf_inp : (Instr.inp .immediate).wellFormed = false := by decide
theorem test_wf_out : (Instr.out (.undefined 0)).wellFormed = false := by decide
theorem test_wf_jt : (Instr.jt .immediate (.undefined 0)).wellFormed = false := by decide
theorem test_wf_jf : (Instr.jf (.undefined 1) .immediate).wellFormed = false := by decide
theorem test_wf_lt : (Instr.lt .immediate .immediate .immediate).wellFormed = false := by decide
theorem test_wf_eq : (Instr.eq .relative (.undefined 2) .relative).wellFormed = false := by decide
theorem test_wf_arb : (Instr.arb (.undefined 3)).wellFormed = false := by decide

/-! ## Decoding words written out from `w = op + 100*m1 + 1000*m2 + 10000*m3` (R47, R59) and V80 to V100 -/

theorem test_decode_add : decode 21101#64 = .ok (.add .immediate .immediate .relative) := by decide -- V82
theorem test_decode_add_undefined : decode 301#64 = .ok (.add (.undefined 0) .position .position) := by decide -- V95
theorem test_decode_mul : decode 1002#64 = .ok (.mul .position .immediate .position) := by decide -- V81
theorem test_decode_in : decode 203#64 = .ok (.inp .relative) := by decide -- V87
theorem test_decode_out : decode 11104#64 = .ok (.out .immediate) := by decide -- V88
theorem test_decode_jt : decode 2105#64 = .ok (.jt .immediate .relative) := by decide -- V90
theorem test_decode_jf : decode 1006#64 = .ok (.jf .position .immediate) := by decide -- P4
theorem test_decode_lt : decode 22207#64 = .ok (.lt .relative .relative .relative) := by decide -- V84
theorem test_decode_eq : decode 1008#64 = .ok (.eq .position .immediate .position) := by decide -- P4
theorem test_decode_arb : decode 209#64 = .ok (.arb .relative) := by decide -- V92
theorem test_decode_hlt : decode 10099#64 = .ok .hlt := by decide -- V94
theorem test_decode_98 : decode 98#64 = .error (.unknownOpcode 98) := by decide -- V98
theorem test_decode_negative : decode (BitVec.ofInt 64 (-1)) = .error .negativeWord := by decide -- V100
theorem test_encode_add : encode (.add .immediate .immediate .relative) = 21101#64 := by decide -- V82
theorem test_encode_jt : encode (.jt .immediate .relative) = 2105#64 := by decide -- V90
theorem test_encode_cells :
    encodeCells (.out .immediate) [BitVec.ofInt 64 (-7)] = some [104#64, BitVec.ofInt 64 (-7)] := by decide -- V17
/-- The first cell of a table word holds the instruction word; here ADD with a fourth cell of 5 (R46, V82). -/
theorem test_table_word : decodeTableWord 256 (21101 + 5 * 2 ^ 192) =
    some (.add .immediate .immediate .relative) := by decide
/-- From reset a placed table word runs as the first instruction: `1,0,0,0` stores 2 into cell 0 (V1). -/
theorem test_placed_word_runs : goesOn (State.reset.withFetchWord 8 1) 4 (cellIs · 0 2) = true := by decide

/-! ## One step of each instruction -/

theorem test_add_reads_before_writing : -- V1
    goesOn (begun [1, 0, 0, 0, 99]) 4 (fun t => cellIs t 0 2 && decide (t.mem.extent = 5) && decide (t.steps = 1)) =
      true := by decide
theorem test_add_overflow : -- V5
    faultsWith (begun [1101, 9223372036854775807, 1, 0, 99]) .arithmeticOverflow 5 0 (some 1101) none
      9223372036854775808 = true := by decide
theorem test_mul_position : -- V3
    goesOn (begun [2, 4, 4, 5, 99, 0]) 4 (cellIs · 5 9801) = true := by decide
theorem test_mul_wraps : -- V8w
    goesOn (midRun wrapping [1102, -1, -9223372036854775808, 0, 99] 0 0 []) 4 (cellIs · 0 (-9223372036854775808)) =
      true := by decide
theorem test_in_writes_own_parameter : -- V16
    goesOn (midRun Config.reference [3, 1, 99] 0 0 [77]) 2 (fun t => cellIs t 1 77 && cellIs t 0 3 &&
      decide (t.iq = [])) = true := by decide
theorem test_in_suspends : -- V13
    nextIs (step (begun [3, 0, 99])) (fun t => decide (t.state = .awaitingInput) && decide (t.pc = 0#64) &&
      decide (t.busy = false) && decide (t.steps = 0) && decide (t.replies = [.ok])) = true := by decide
theorem test_out_relative : -- V19
    goesOn (begun [204, 0, 99]) 2 (fun t => decide (t.oq = [204#64])) = true := by decide
theorem test_out_beyond_extent : -- V18
    goesOn (begun [4, 10, 99]) 2 (fun t => decide (t.oq = [0#64]) && decide (t.mem.extent = 11)) = true := by decide
theorem test_jt_indirect : -- V26
    goesOn (begun [105, 1, 7, 99, 104, 9, 99, 4]) 4 (fun t => decide (t.oq = [])) = true := by decide
theorem test_jt_not_taken_reads_target : -- V29
    goesOn (begun [5, 4, 20, 99, 0]) 3 (fun t => decide (t.mem.extent = 21)) = true := by decide
theorem test_jf_taken : -- V22
    goesOn (begun [1106, 0, 7, 104, 0, 99, 0, 104, 1, 99]) 7 (fun _ => true) = true := by decide
theorem test_jf_negative_condition_falls_through : -- V23
    goesOn (begun [1106, -3, 7, 104, 0, 99, 0, 104, 1, 99]) 3 (fun _ => true) = true := by decide
theorem test_lt_is_signed : -- V32
    goesOn (begun [1107, -9223372036854775808, 9223372036854775807, 5, 99, 7]) 4 (cellIs · 5 1) = true := by decide
theorem test_lt_equal_is_zero : -- V31
    goesOn (begun [1107, 5, 5, 5, 99, 7]) 4 (cellIs · 5 0) = true := by decide
theorem test_eq_own_word : -- V35
    goesOn (begun [8, 0, 0, 0, 99]) 4 (cellIs · 0 1) = true := by decide
theorem test_eq_unequal : -- V34
    goesOn (begun [1108, 8, 9, 5, 99, 7]) 4 (cellIs · 5 0) = true := by decide
theorem test_arb_uses_old_base : -- V43
    goesOn (begun [209, 3, 99, 7]) 2 (fun t => decide (t.rb = 7#64)) = true := by decide
theorem test_arb_adds_to_base : -- V40, its second instruction
    goesOn (midRun Config.reference [109, 2000, 109, 19, 204, -34, 99] 2 2000 []) 4
      (fun t => decide (t.rb = 2019#64)) = true := by decide
theorem test_hlt_keeps_pc : -- V47
    nextIs (step (begun [10099])) (fun t => decide (t.state = .halted) && decide (t.pc = 0#64) &&
      decide (t.busy = false) && decide (t.steps = 0) && decide (t.replies = [.ok])) = true := by decide

theorem test_relative_read_with_negative_base : -- V42, its second instruction
    goesOn (midRun Config.reference [109, -1, 204, 1, 99] 2 (-1) []) 4 (fun t => decide (t.oq = [109#64])) = true := by
  decide
theorem test_relative_write_target : -- P3, its second instruction
    goesOn (midRun Config.reference [109, 1000, 21101, 5, 7, 5, 99] 2 1000 []) 6 (fun t => cellIs t 1005 12 &&
      decide (t.mem.extent = 1006)) = true := by decide

/-! ## Faults -/

theorem test_fault_read_address : -- V9
    faultsWith (begun [1, -1, 0, 0, 99]) .addressFault 3 0 (some 1) (some .first) (-1) = true := by decide
theorem test_fault_write_target_before_overflow : -- V71
    faultsWith (begun [11101, 9223372036854775807, 1, 0]) .invalidWriteTarget 2 0 (some 11101) (some .third) 0 =
      true := by decide
theorem test_fault_mode : -- V12
    faultsWith (begun [301, 0, 0, 0, 99]) .invalidMode 4 0 (some 301) (some .first) 3 = true := by decide
theorem test_fault_first_parameter_first : -- V70
    faultsWith (begun [30001, -1, 0, 0]) .addressFault 3 0 (some 30001) (some .first) (-1) = true := by decide
theorem test_fault_input_target : -- V15
    faultsWith (midRun Config.reference [203, -1, 99] 0 0 [9]) .addressFault 3 0 (some 203) (some .first) (-1) =
      true := by decide
theorem test_fault_jump_target : -- V24
    faultsWith (begun [1105, 1, -1]) .addressFault 3 0 (some 1105) none (-1) = true := by decide
theorem test_fault_opcode_negative : -- V52
    faultsWith (begun [-99]) .invalidOpcode 1 0 (some (-99)) none (-99) = true := by decide
theorem test_fault_opcode_beyond_extent : -- V27, its second fetch
    faultsWith (midRun Config.reference [1105, 1, 100] 100 0 []) .invalidOpcode 1 100 (some 0) none 0 = true := by
  decide
theorem test_fault_memory_target : -- V60
    faultsWith (midRun (limited 8) [1101, 1, 1, 10, 99] 0 0 []) .memoryExhausted 6 0 (some 1101) (some .third) 10 =
      true := by decide
theorem test_fault_memory_parameter : -- V61, its second instruction
    faultsWith (midRun (limited 5) [1101, 1, 1, 4, 2] 4 0 []) .memoryExhausted 6 4 (some 2) (some .first) 5 =
      true := by decide
theorem test_fault_memory_fetch : -- R60: a pc at `MEM_LIMIT`
    faultsWith (midRun (limited 5) [99] 5 0 []) .memoryExhausted 6 5 none none 5 = true := by decide
theorem test_fault_step_limit : -- V28, after 10 completed steps
    faultsWith { midRun (budgeted 10) [1105, 1, 0] 0 0 [] with steps := 10 } .stepLimitExceeded 7 0 none none 10 =
      true := by decide
theorem test_fault_reply : -- R86: the record is the result of the `run`
    nextIs (step (begun [98])) (fun t => decide (t.replies = [.faulted ⟨.invalidOpcode, 1, 0#64, some 98#64, none,
      some 98⟩])) = true := by decide

/-! ## The host interface -/

theorem test_run_starts : -- R91
    nextIs (step (idleIn .awaitingInput [3, 0, 99] [.run])) (fun t => decide (t.state = .running) && t.busy &&
      decide (t.commands = [])) = true := by decide
theorem test_run_on_halted : -- V45
    nextIs (step (idleIn .halted [99] [.run])) (fun t => decide (t.state = .halted) && !t.busy &&
      decide (t.replies = [.ok])) = true := by decide
theorem test_input_after_halt : -- H5
    nextIs (step (idleIn .halted [99] [.writeInput 5#64])) (fun t => decide (t.iq = [5#64]) &&
      decide (t.state = .halted)) = true := by decide
theorem test_read_empty_output : -- H4
    nextIs (step (idleIn .halted [99] [.readOutput])) (fun t => decide (t.replies = [.empty])) = true := by decide
theorem test_peek_shows_the_extent : -- H9, after the run
    nextIs (step { idleIn .halted [4, 10, 99] [.peekMemory] with
        mem := (Memory.ofImage [4#64, 10#64, 99#64]).touch 10 })
      (fun t => decide (t.replies = [.memory ([4, 10, 99, 0, 0, 0, 0, 0, 0, 0, 0].map (BitVec.ofNat 64))])) = true := by
  decide
theorem test_reset_clears_the_queues : -- H3
    nextIs (step { idleIn .halted [1, 0, 99] [.reset [3#64, 0#64, 99#64]] with iq := [2#64] })
      (fun t => decide (t.iq = []) && decide (t.state = .running) && cellIs t 0 3) = true := by decide
theorem test_faulted_refuses : -- H6
    refuses (step (idleIn .faulted [0] [.halted])) .instanceFaulted = true := by decide
theorem test_empty_image_refused : -- H7
    refuses (step (idleIn .running [1] [.reset []])) .illegalImage = true := by decide
theorem test_long_image_refused : -- H7
    refuses (createInstance (limited 3) [1#64, 2#64, 3#64, 4#64] []) .illegalImage = true := by decide
theorem test_command_while_busy : -- R20
    refuses (hostCommand .halted (begun [99])) .commandWhileBusy = true := by decide
theorem test_parse_signs : -- H10
    parseProgram [' ', '1', ',', ' ', '-', '2', ' ', ',', '+', '3', '\n'] =
      .ok [1#64, BitVec.ofInt 64 (-2), 3#64] := by decide
theorem test_parse_trailing_comma : -- H10
    parseProgram ['1', ',', '2', ','] = .error .parseError := by decide

/-! ## The notation of the spec's programs -/

theorem test_assemble_program : -- P5
    assemble [.inp (.cell 9#64), .mul (.cell 9#64) (.literal 2#64) (.cell 9#64), .out (.cell 9#64), .hlt,
      .data [0#64]] = some ([3, 9, 1002, 9, 2, 9, 4, 9, 99, 0].map (BitVec.ofNat 64)) := by decide
theorem test_assemble_relative : -- V82
    assembleLine (.add (.literal 5#64) (.literal 7#64) (.based 5#64)) =
      some [21101#64, 5#64, 7#64, 5#64] := by decide
theorem test_assemble_literal_target : -- R61: `#v` in a write position is not a legal line
    assembleLine (.inp (.literal 0#64)) = none := by decide
theorem test_no_op_idiom : -- R62: `JT #0, #0` moves the pc by 3
    (assembleLine (.jt (.literal 0#64) (.literal 0#64)) = some [1105#64, 0#64, 0#64] ∧
      goesOn (begun [1105, 0, 0]) 3 (fun t => cellIs t 0 1105 && decide (t.rb = 0#64))) := by decide

/-! ## Witnesses: states and operands that meet the hypotheses of each statement

Where a statement speaks of a next state, `nextIs` says that there is one and that the named conditions hold of it. -/

/-- The pc is in the memory and the fetch is about to be made. -/
def atFetch (s : State) : Bool := fetching s && decide (s.pc.toNat < s.cfg.memLimit)

/-- The cell at the pc decodes to this instruction. -/
def decodesTo (s : State) (i : Instr) : Bool := decide (decode (s.mem.read s.pc.toNat) = .ok i)

/-- The clauses at the ends of their ranges: a negative word, opcodes 0, 10 and 98, and a fetch at the extent. -/
theorem witness_WordsWithoutOpcodeRaiseInvalidOpcode :
    (atFetch (begun [-1]) = true ∧ ((begun [-1]).mem.read (begun [-1]).pc.toNat).toInt < 0) ∧
    (∀ op ∈ [0, 10, 98, 100], atFetch (begun [op]) = true ∧
      ((begun [op]).mem.read (begun [op]).pc.toNat).toNat % 100 ∉ [1, 2, 3, 4, 5, 6, 7, 8, 9, 99]) ∧
    (atFetch (midRun Config.reference [99] 1 0 []) = true ∧
      (midRun Config.reference [99] 1 0 []).mem.wf = true ∧
      (midRun Config.reference [99] 1 0 []).mem.extent ≤ (midRun Config.reference [99] 1 0 []).pc.toNat) := by
  decide

/-- One state for each branch of the loop's tail: completed, suspended, halted, faulted. -/
theorem witness_StepRunsTheDecodedInstruction :
    (atFetch (begun [1, 0, 0, 0]) && decodesTo (begun [1, 0, 0, 0]) (.add .position .position .position) &&
      nextIs (exec (.add .position .position .position) (begun [1, 0, 0, 0])) (fun t => decide (t.state = .running)) &&
    (atFetch (begun [3, 0]) && decodesTo (begun [3, 0]) (.inp .position) &&
      nextIs (exec (.inp .position) (begun [3, 0])) (fun t => decide (t.state = .awaitingInput))) &&
    (atFetch (begun [99]) && decodesTo (begun [99]) .hlt &&
      nextIs (exec .hlt (begun [99])) (fun t => decide (t.state = .halted))) &&
    (atFetch (begun [4, -1]) && decodesTo (begun [4, -1]) (.out .position) &&
      nextIs (exec (.out .position) (begun [4, -1])) (fun t => decide (t.state = .faulted)))) = true := by
  decide

theorem witness_PlacedWordIsTheNextInstruction :
    State.reset.cfg.legal = true ∧ State.reset.mem.wf = true ∧
      State.reset.pc.toNat < State.reset.cfg.memLimit ∧
      decodeTableWord 8 1 = some (.add .position .position .position) := by
  decide

/-- Sums at the ends of the range, and beyond them under `Wrap`. -/
theorem witness_AddStoresTheSum :
    (∀ s ∈ [begun [1101, 9223372036854775806, 1, 0], begun [1101, -9223372036854775807, -1, 0],
        midRun wrapping [1101, 9223372036854775807, 1, 0] 0 0 []],
      readable .first .immediate s = true ∧ readable .second .immediate s = true ∧
        writable .third .position s = true ∧
        storable s.cfg (operandInt .first .immediate s + operandInt .second .immediate s) = true) := by
  decide

theorem witness_MulStoresTheProduct :
    (∀ s ∈ [begun [21002, 0, -1, 5], midRun wrapping [21002, 0, -9223372036854775808, 5] 0 0 []],
      readable .first .position s = true ∧ readable .second .immediate s = true ∧
        writable .third .relative s = true ∧
        storable s.cfg (operandInt .first .position s * operandInt .second .immediate s) = true) := by
  decide

/-- The memory's last cell is a legal operand and a legal target; both outcomes of the comparison occur. -/
theorem witness_LtStoresTheSignedComparison :
    (∀ s ∈ [midRun (limited 5) [7, 4, 0, 4] 0 0 [], midRun (limited 5) [7, 0, 4, 4] 0 0 []],
      readable .first .position s = true ∧ readable .second .position s = true ∧
        writable .third .position s = true) ∧
    operandInt .first .position (midRun (limited 5) [7, 4, 0, 4] 0 0 []) <
      operandInt .second .position (midRun (limited 5) [7, 4, 0, 4] 0 0 []) ∧
    ¬ operandInt .first .position (midRun (limited 5) [7, 0, 4, 4] 0 0 []) <
      operandInt .second .position (midRun (limited 5) [7, 0, 4, 4] 0 0 []) := by
  decide

theorem witness_EqStoresTheEquality :
    (∀ s ∈ [midRun (limited 5) [22208, -7, -7, -7] 0 7 [], midRun (limited 5) [22208, -7, -6, -3] 0 7 []],
      readable .first .relative s = true ∧ readable .second .relative s = true ∧
        writable .third .relative s = true) ∧
    operandValue .first .relative (midRun (limited 5) [22208, -7, -7, -7] 0 7 []) =
      operandValue .second .relative (midRun (limited 5) [22208, -7, -7, -7] 0 7 []) ∧
    operandValue .first .relative (midRun (limited 5) [22208, -7, -6, -3] 0 7 []) ≠
      operandValue .second .relative (midRun (limited 5) [22208, -7, -6, -3] 0 7 []) := by
  decide

theorem witness_InputStoresTheOldestValue :
    (midRun Config.reference [3, 0] 0 0 [42, 43]).iq = 42#64 :: [43#64] ∧
      writable .first .position (midRun Config.reference [3, 0] 0 0 [42, 43]) = true := by
  decide

theorem witness_InputSuspendsOnAnEmptyQueue : (begun [103, 0]).iq = [] := by decide

theorem witness_OutputAppendsTheOperand :
    readable .first .position (midRun (limited 3) [4, 2] 0 0 []) = true := by decide

/-- Taken to 0 and to 2^63 - 1, and not taken with a negative target. -/
theorem witness_JumpIfTrueJumpsOnNonZero :
    (∀ s ∈ [begun [1105, 1, 0], begun [1105, -1, 9223372036854775807], begun [1105, 0, -1]],
      readable .first .immediate s = true ∧ readable .second .immediate s = true ∧
        (operandInt .first .immediate s ≠ 0 → 0 ≤ operandInt .second .immediate s)) ∧
    operandInt .first .immediate (begun [1105, 1, 0]) ≠ 0 ∧
    operandInt .first .immediate (begun [1105, 0, -1]) = 0 := by
  decide

theorem witness_JumpIfFalseJumpsOnZero :
    (∀ s ∈ [begun [1106, 0, 0], begun [1106, 0, 9223372036854775807], begun [1106, 1, -1]],
      readable .first .immediate s = true ∧ readable .second .immediate s = true ∧
        (operandInt .first .immediate s = 0 → 0 ≤ operandInt .second .immediate s)) ∧
    operandInt .first .immediate (begun [1106, 0, 0]) = 0 ∧
    operandInt .first .immediate (begun [1106, 1, -1]) ≠ 0 := by
  decide

theorem witness_AdjustBaseAddsToRb :
    (∀ s ∈ [midRun Config.reference [109, 1] 0 9223372036854775806 [],
        midRun wrapping [109, 1] 0 9223372036854775807 []],
      readable .first .immediate s = true ∧
        storable s.cfg (s.rb.toInt + operandInt .first .immediate s) = true) := by
  decide

/-- Each clause at the value next to its bound. -/
theorem witness_AluResultIsExactOrByPolicy :
    inI64 (2 ^ 63 - 1) = true ∧ inI64 (-(2 ^ 63)) = true ∧
    (inI64 (2 ^ 63) = false ∧ wrapping.overflowPolicy = .wrap) ∧
    (inI64 (-(2 ^ 63) - 1) = false ∧ Config.reference.overflowPolicy = .fault) := by
  decide

theorem witness_StoringInstructionsChangeOneCell :
    (∀ i ∈ [Instr.add .position .immediate .position, .mul .position .immediate .position,
        .lt .position .immediate .position, .eq .position .immediate .position],
      (begun [1001, 0, 3, 9]).state = .running ∧
        nextIs (exec i (begun [1001, 0, 3, 9])) (fun t => t.safe) = true) := by
  decide

/-- Both clauses: a suspending IN and a completing one. -/
theorem witness_InputChangesItsTargetOrNothing :
    (∀ s ∈ [begun [3, 9], midRun Config.reference [3, 9] 0 0 [5]],
      s.state = .running ∧ nextIs (exec (.inp .position) s) (fun t => t.safe) = true) ∧
    (begun [3, 9]).iq = [] ∧ (midRun Config.reference [3, 9] 0 0 [5]).iq ≠ [] := by
  decide

theorem witness_NonStoringInstructionsKeepEveryCell :
    (∀ i ∈ [Instr.out .position, .jt .position .position, .jf .position .position, .arb .position, .hlt],
      (begun [4, 9, 9]).state = .running ∧ nextIs (exec i (begun [4, 9, 9])) (fun t => t.safe) = true) := by
  decide

/-- A fault at each step of the order of R88, and a pass without one. -/
theorem witness_PassReportsTheFirstFaultInOrder :
    (∀ s ∈ [midRun (budgeted 1) [99] 0 0 [], begun [99]], s.busy = true ∧ s.state = .running) ∧
    passFault { midRun (budgeted 1) [99] 0 0 [] with steps := 1 } =
      some (none, ⟨.stepLimitExceeded, none, 1⟩) ∧
    passFault (midRun (limited 5) [99] 5 0 []) = some (none, ⟨.memoryExhausted, none, 5⟩) ∧
    passFault (begun [98]) = some (some 98#64, ⟨.invalidOpcode, none, 98⟩) ∧
    passFault (midRun (limited 1) [4] 0 0 []) = some (some 4#64, ⟨.memoryExhausted, some .first, 1⟩) ∧
    passFault (begun [304, 0]) = some (some 304#64, ⟨.invalidMode, some .first, 3⟩) ∧
    passFault (begun [1, 0, -1, 0]) = some (some 1#64, ⟨.addressFault, some .second, -1⟩) ∧
    passFault (midRun (limited 5) [1101, 1, 1, 5] 0 0 []) =
      some (some 1101#64, ⟨.memoryExhausted, some .third, 5⟩) ∧
    passFault (begun [1105, 1, -1]) = some (some 1105#64, ⟨.addressFault, none, -1⟩) ∧
    passFault (begun [99]) = none ∧
    (passFault (begun [103, 0]) = none ∧ decodesTo (begun [103, 0]) (.inp .immediate) = true ∧
      (begun [103, 0]).iq = []) := by
  decide

theorem witness_FaultEntryKeepsTheRecordAndEndsTheRun :
    (begun [98]).safe = true ∧ nextIs (step (begun [98])) (fun t => !t.safe) = true := by decide

/-- Both clauses, the third parameter word and the first at the memory's last cell. -/
theorem witness_ImmediateWriteTargetFaults :
    (readable .first .immediate (midRun (limited 4) [11101, 1, 1, 0] 0 0 []) = true ∧
      readable .second .immediate (midRun (limited 4) [11101, 1, 1, 0] 0 0 []) = true ∧
      paramCell .third (midRun (limited 4) [11101, 1, 1, 0] 0 0 []) <
        (midRun (limited 4) [11101, 1, 1, 0] 0 0 []).cfg.memLimit) ∧
    ((midRun (limited 2) [103, 0] 0 0 [5]).iq ≠ [] ∧
      paramCell .first (midRun (limited 2) [103, 0] 0 0 [5]) <
        (midRun (limited 2) [103, 0] 0 0 [5]).cfg.memLimit) := by
  decide

theorem witness_OverflowFaultsOnlyUnderTheFaultPolicy :
    (begun [1101, 9223372036854775807, 1, 0]).safe = true ∧
    (begun [1101, 9223372036854775807, 1, 0]).fault = none ∧
    nextIs (step (begun [1101, 9223372036854775807, 1, 0]))
      (fun t => t.fault.any (fun r => decide (r.kind = .arithmeticOverflow))) = true := by
  decide

/-- Every refused command, and a new instance in the place. -/
theorem witness_FaultedInstanceRefusesEveryCommand :
    (∀ c ∈ [Command.run, .readOutput, .halted, .peekMemory, .writeInput 1#64, .reset [0#64]],
      (idleIn .faulted [0] [c]).busy = false ∧ (idleIn .faulted [0] [c]).state = .faulted ∧
        (idleIn .faulted [0] [c]).commands = c :: []) ∧
    legalImage (idleIn .faulted [0] [.fromProgram [99#64]]).cfg [99#64] = true ∧
    (idleIn .faulted [0] [.fromProgram [99#64]]).commands = .fromProgram [99#64] :: [] := by
  decide

theorem witness_OnlyAdjustBaseWritesRb :
    nextIs (step (begun [109, 5])) (fun t => t.safe && decide (t.rb ≠ (begun [109, 5]).rb)) = true ∧
    nextIs (step { idleIn .halted [99] [.reset [99#64]] with rb := 5#64 })
      (fun t => t.safe && decide (t.rb ≠ 5#64)) = true := by
  decide

/-- Sequential, taken and not taken, suspended, completed and halted. -/
theorem witness_OnlyTakenJumpsLeaveTheSequence :
    (∀ p ∈ [(begun [104, 0], Instr.out .immediate), (begun [1105, 1, 7], .jt .immediate .immediate),
        (begun [1106, 0, 7], .jf .immediate .immediate), (begun [1106, 1, 7], .jf .immediate .immediate),
        (begun [1105, 0, 7], .jt .immediate .immediate), (begun [3, 0], .inp .position),
        (midRun Config.reference [3, 0] 0 0 [5], .inp .position), (begun [99], .hlt)],
      atFetch p.1 = true ∧ decodesTo p.1 p.2 = true ∧ nextIs (step p.1) (fun t => t.safe) = true) := by
  decide

/-- A run that has begun on an image meets the invariant. -/
theorem begun_inv (image : List Int) (h : (begun image).mem.wf = true) (hp : 1 ≤ (begun image).mem.extent)
    (hl : (begun image).mem.extent ≤ 2 ^ 63) : (begun image).Inv where
  cfg_legal := rfl
  mem_wf := h
  extent_pos := fun _ => hp
  extent_le := fun _ => hl
  pc_le := fun _ => by show (BitVec.ofNat 64 0).toNat ≤ 2 ^ 63; decide
  busy_running := fun _ => rfl
  fault_iff := by simp [begun, midRun, beginRun]
  steps_le := fun n hn => by simp [begun, midRun, beginRun, newInstance, loadState, Config.reference] at hn

theorem witness_PcNeverWraps :
    (begun [1105, 0, -1]).Inv ∧ atFetch (begun [1105, 0, -1]) = true ∧
      decodesTo (begun [1105, 0, -1]) (.jt .immediate .immediate) = true ∧
      nextIs (step (begun [1105, 0, -1])) (fun t => decide (t.state = .running)) = true ∧
      operandInt .first .immediate (begun [1105, 0, -1]) = 0 ∧
    (begun [1106, 1, -1]).Inv ∧ atFetch (begun [1106, 1, -1]) = true ∧
      decodesTo (begun [1106, 1, -1]) (.jf .immediate .immediate) = true ∧
      nextIs (step (begun [1106, 1, -1])) (fun t => decide (t.state = .running)) = true ∧
      operandInt .first .immediate (begun [1106, 1, -1]) ≠ 0 ∧
    (begun [104, 0]).Inv ∧ atFetch (begun [104, 0]) = true ∧
      decodesTo (begun [104, 0]) (.out .immediate) = true ∧ (Instr.out .immediate).arity ≠ 2 ∧
      nextIs (step (begun [104, 0])) (fun t => decide (t.state = .running)) = true :=
  ⟨begun_inv _ (by decide) (by decide) (by decide), by decide, by decide, by decide, by decide,
    begun_inv _ (by decide) (by decide) (by decide), by decide, by decide, by decide, by decide,
    begun_inv _ (by decide) (by decide) (by decide), by decide, by decide, by decide, by decide⟩

theorem witness_QueuesChangeOnlyByTheirInstruction :
    (begun [104, 0]).busy = true ∧
    nextIs (step (begun [104, 0])) (fun t => t.safe && decide (t.oq ≠ (begun [104, 0]).oq)) = true ∧
    nextIs (step (midRun Config.reference [3, 0] 0 0 [5])) (fun t => t.safe &&
      decide (t.iq ≠ (midRun Config.reference [3, 0] 0 0 [5]).iq)) = true := by
  decide

theorem witness_ExtentGrowsByTheListedAccesses :
    atFetch (begun [4, 10]) = true ∧ decodesTo (begun [4, 10]) (.out .position) = true ∧
      nextIs (step (begun [4, 10])) (fun t => t.safe) = true := by
  decide

theorem witness_ExtentShrinksOnlyByALoad :
    nextIs (step (idleIn .halted [99, 0] [.reset [99#64]])) (fun t => t.safe &&
      decide (t.mem.extent < (idleIn .halted [99, 0] [.reset [99#64]]).mem.extent)) = true := by
  decide

/-- `1002,4,3,4,33` (W2): the word 99 is stored at 4, where the pc goes next. -/
theorem witness_StoredWordIsTheNextInstruction :
    (begun [1002, 4, 3, 4, 33]).mem.wf = true ∧ atFetch (begun [1002, 4, 3, 4, 33]) = true ∧
    decodesTo (begun [1002, 4, 3, 4, 33]) (.mul .position .immediate .position) = true ∧
    storedWord (.mul .position .immediate .position) (begun [1002, 4, 3, 4, 33]) = some (4, 99#64) ∧
    nextIs (step (begun [1002, 4, 3, 4, 33])) (fun t => fetching t && decide (t.pc.toNat = 4)) = true ∧
    decode 99#64 = .ok .hlt := by
  decide

theorem witness_ParametersNeverChange : nextIs (step (begun [99])) (fun _ => true) = true := by decide

theorem witness_EveryStepKeepsTheInvariant :
    (begun [1, 0, 0, 0]).Inv ∧ nextIs (step (begun [1, 0, 0, 0])) (fun _ => true) = true :=
  ⟨begun_inv _ (by decide) (by decide) (by decide), by decide⟩

/-- Two faulted instances that differ in every unspecified value. -/
theorem witness_UnspecifiedStateIsNeverObserved :
    SameToHost (idleIn .faulted [0] [.run])
      { idleIn .faulted [1, 2] [.run] with pc := 7#64, rb := 8#64, iq := [9#64], oq := [9#64], freeDraws := 5 } where
  cfg := rfl
  state := rfl
  busy := rfl
  steps := rfl
  fault := rfl
  commands := rfl
  replies := rfl
  mem := fun h => absurd h (by decide)
  pc := fun h => absurd h (by decide)
  rb := fun h => absurd h (by decide)
  iq := fun h => absurd h (by decide)
  oq := fun h => absurd h (by decide)

theorem witness_RunStartsTheLoop :
    (∀ r ∈ [RunState.halted, .running, .awaitingInput, .faulted],
      (idleIn r [99] [.run]).busy = false ∧ (idleIn r [99] [.run]).commands = .run :: [] ∧
        (idleIn r [99] [.run]).state = r) := by
  decide

/-- The budget spent, and one short of it. -/
theorem witness_StepBudgetCountsCompletedInstructions :
    (∀ n ∈ [9, 10], ({ midRun (budgeted 10) [1105, 1, 0] 0 0 [] with steps := n } : State).busy = true ∧
      ({ midRun (budgeted 10) [1105, 1, 0] 0 0 [] with steps := n } : State).state = .running) ∧
    (budgeted 10).stepBudget = some 10 ∧ (budgeted 10).stepBudget ≠ some 9 := by
  decide

/-- Inside a `run` with 10 of 10 instructions left. -/
theorem witness_FiniteBudgetEndsEveryRun :
    (midRun (budgeted 10) [1105, 1, 0] 0 0 []).Inv ∧ (midRun (budgeted 10) [1105, 1, 0] 0 0 []).busy = true ∧
      (midRun (budgeted 10) [1105, 1, 0] 0 0 []).cfg.stepBudget = some 10 :=
  ⟨{ cfg_legal := by decide
     mem_wf := by decide
     extent_pos := fun _ => by decide
     extent_le := fun _ => by decide
     pc_le := fun _ => by decide
     busy_running := fun _ => rfl
     fault_iff := by decide
     steps_le := fun _ _ => Nat.zero_le _ }, rfl, rfl⟩

/-- A command that leaves the instance halted, and one that loads. -/
theorem witness_HaltedEndsOnlyByALoad :
    (∀ c ∈ [Command.run, .writeInput 5#64, .readOutput, .halted, .peekMemory, .reset [99#64]],
      (idleIn .halted [99] [c]).state = .halted ∧ nextIs (step (idleIn .halted [99] [c])) (fun _ => true) = true) := by
  decide

theorem witness_SuspendedInputResumesWithTheValue :
    (∀ r ∈ [RunState.running, .awaitingInput],
      (idleIn r [3, 0, 99] [.run, .writeInput 7#64, .run]).busy = false ∧
      ((idleIn r [3, 0, 99] [.run, .writeInput 7#64, .run]).state = .running ∨
        (idleIn r [3, 0, 99] [.run, .writeInput 7#64, .run]).state = .awaitingInput) ∧
      (idleIn r [3, 0, 99] [.run, .writeInput 7#64, .run]).cfg.legal = true ∧
      (idleIn r [3, 0, 99] [.run, .writeInput 7#64, .run]).mem.wf = true ∧
      (idleIn r [3, 0, 99] [.run, .writeInput 7#64, .run]).iq = [] ∧
      (idleIn r [3, 0, 99] [.run, .writeInput 7#64, .run]).pc.toNat < 2 ^ 63 ∧
      decodesTo (idleIn r [3, 0, 99] [.run, .writeInput 7#64, .run]) (.inp .position) = true ∧
      writable .first .position (idleIn r [3, 0, 99] [.run, .writeInput 7#64, .run]) = true ∧
      (idleIn r [3, 0, 99] [.run, .writeInput 7#64, .run]).commands = .run :: .writeInput 7#64 :: .run :: []) := by
  decide

/-- Both clauses, at the longest legal image and the shortest illegal ones. -/
theorem witness_FromProgramMakesALoadedInstance :
    ([1#64, 2#64, 3#64] ≠ ([] : List Word) ∧ [1#64, 2#64, 3#64].length ≤ (limited 3).memLimit) ∧
    (limited 3).memLimit < [1#64, 2#64, 3#64, 4#64].length := by
  decide

/-- Each clause: a legal image, the empty one, one too long, and a faulted instance. -/
theorem witness_ResetRestoresTheLoadState :
    (∀ image ∈ [[99#64], [], [1#64, 2#64]],
      ({ idleIn .halted [99] [.reset image] with cfg := limited 1 } : State).busy = false ∧
      ({ idleIn .halted [99] [.reset image] with cfg := limited 1 } : State).commands = .reset image :: [] ∧
      ({ idleIn .halted [99] [.reset image] with cfg := limited 1 } : State).state ≠ .faulted) ∧
    ([99#64] ≠ ([] : List Word) ∧ [99#64].length ≤ (limited 1).memLimit) ∧
    (limited 1).memLimit < [1#64, 2#64].length ∧
    (idleIn .faulted [0] [.reset [99#64]]).state = .faulted := by
  decide

theorem witness_WriteInputAppends :
    (∀ r ∈ [RunState.halted, .running, .awaitingInput, .faulted],
      (idleIn r [99] [.writeInput 5#64]).busy = false ∧
      (idleIn r [99] [.writeInput 5#64]).commands = .writeInput 5#64 :: [] ∧
      (idleIn r [99] [.writeInput 5#64]).state = r) := by
  decide

theorem witness_ReadOutputPopsTheOldest :
    (∀ q ∈ [[], [1#64, 2#64]],
      ({ idleIn .halted [99] [.readOutput] with oq := q } : State).busy = false ∧
      ({ idleIn .halted [99] [.readOutput] with oq := q } : State).commands = .readOutput :: [] ∧
      ({ idleIn .halted [99] [.readOutput] with oq := q } : State).state ≠ .faulted) ∧
    (idleIn .faulted [0] [.readOutput]).state = .faulted := by
  decide

theorem witness_HaltedObservesWithoutMutation :
    (∀ r ∈ [RunState.halted, .running, .awaitingInput],
      (idleIn r [99] [.halted]).busy = false ∧ (idleIn r [99] [.halted]).commands = .halted :: [] ∧
      (idleIn r [99] [.halted]).state = r) := by
  decide

theorem witness_PeekMemoryAnswersTheImage :
    (∀ r ∈ [RunState.halted, .faulted],
      (idleIn r [99] [.peekMemory]).busy = false ∧ (idleIn r [99] [.peekMemory]).commands = .peekMemory :: [] ∧
      (idleIn r [99] [.peekMemory]).state = r) := by
  decide

/-- Two instances with different pasts. -/
theorem witness_ResetMakesRunsRepeatable :
    (idleIn .halted [1, 2] []).cfg = ({ idleIn .running [3] [] with rb := 9#64 } : State).cfg ∧
    (idleIn .halted [1, 2] []).busy = false ∧ ({ idleIn .running [3] [] with rb := 9#64 } : State).busy = false ∧
    (idleIn .halted [1, 2] []).safe = true ∧ ({ idleIn .running [3] [] with rb := 9#64 } : State).safe = true ∧
    legalImage (idleIn .halted [1, 2] []).cfg [3#64, 0#64, 4#64, 0#64, 99#64] = true := by
  decide

theorem witness_InstancesShareNoState :
    nextIs (stepInstance 1 [begun [98], begun [104, 5]]) (fun _ => true) = true := by decide

/-- Both clauses, at address 0 and at the memory's last cell, and a parameter word in that cell. -/
theorem witness_ResolutionUsesTheExactAddress :
    (∀ a ∈ [(0 : Int), 4], 0 ≤ a ∧ a < ((limited 5).memLimit : Int)) ∧
    (∀ a ∈ [(0 : Int), 4], paramCell .first (midRun (limited 5) [4, a - 7] 0 7 []) < (limited 5).memLimit ∧
      a = (midRun (limited 5) [4, a - 7] 0 7 []).rb.toInt +
        ((midRun (limited 5) [4, a - 7] 0 7 []).mem.read (0 + ParamIndex.first.toNat)).toInt) ∧
    (∀ a ∈ [(0 : Int), 4], paramCell .first (midRun (limited 5) [4, a] 0 0 []) < (limited 5).memLimit ∧
      a = ((midRun (limited 5) [4, a] 0 0 []).mem.read (0 + ParamIndex.first.toNat)).toInt) ∧
    paramCell .third (midRun (limited 4) [1, 0, 0, 0] 0 0 []) < (limited 4).memLimit := by
  decide

end Sys2Proof.Tests
end

section
/-! SUPPORT. The facts about the memory's extent, the cells an instruction accesses and where it leaves the pc
(10_state.md R14, R23; 20_memory.md R32, R36). -/

namespace Sys2Proof.Machine

/-! ## The extent -/

/-- Extensions keep the extent within a bound exactly when it lay there and every cell they make does. -/
theorem Memory.extent_touchAll_le_iff (m : Memory) (cells : List Nat) (n : Nat) :
    (m.touchAll cells).extent ≤ n ↔ m.extent ≤ n ∧ ∀ a ∈ cells, a < n := by
  induction cells generalizing m with
  | nil => simp [Memory.touchAll]
  | cons a rest ih =>
    calc (m.touchAll (a :: rest)).extent ≤ n
        ↔ (m.touch a).extent ≤ n ∧ ∀ b ∈ rest, b < n := ih (m.touch a)
      _ ↔ m.extent ≤ n ∧ ∀ b ∈ a :: rest, b < n := by
        rw [Memory.extent_touch, Nat.max_le, Nat.succ_le_iff, List.forall_mem_cons, and_assoc]

theorem storedWord_mem_accessedCells {i : Instr} {s : State} {c : Nat} {w : Word}
    (h : storedWord i s = some (c, w)) : c ∈ accessedCells i s := by
  cases i with
  | add m1 m2 m3 | mul m1 m2 m3 | lt m1 m2 m3 | eq m1 m2 m3 =>
    simp only [storedWord, Option.some.injEq, Prod.mk.injEq] at h
    simp [accessedCells, h.1]
  | inp m1 =>
    cases hq : s.iq with
    | nil => simp [storedWord, hq] at h
    | cons v rest =>
      simp only [storedWord, hq, List.head?_cons, Option.map_some, Option.some.injEq, Prod.mk.injEq] at h
      simp [accessedCells, hq, h.1]
  | out m1 | jt m1 m2 | jf m1 m2 | arb m1 | hlt => cases h

/-- The write of an instruction extends the memory no further than its accesses do. -/
theorem extent_nextMem (i : Instr) (s : State) :
    (nextMem i s).extent = (s.mem.touchAll (accessedCells i s)).extent := by
  unfold nextMem
  split
  · rfl
  · next c w h =>
    have hc := ((s.mem.extent_touchAll_le_iff (accessedCells i s) _).1 (Nat.le_refl _)).2 c
      (storedWord_mem_accessedCells h)
    rw [Memory.extent_write]
    omega

theorem extent_le_extent_nextMem (i : Instr) (s : State) : s.mem.extent ≤ (nextMem i s).extent := by
  rw [extent_nextMem]
  exact ((s.mem.extent_touchAll_le_iff _ _).1 (Nat.le_refl _)).1

theorem wf_nextMem {s : State} (h : s.mem.wf = true) (i : Instr) : (nextMem i s).wf = true := by
  have ht := Memory.wf_touchAll h (accessedCells i s)
  unfold nextMem
  split
  · exact ht
  · exact Memory.wf_write ht _ _

/-! ## The accesses of an instruction that does not fault -/

theorem addressExists_toNat_lt {cfg : Config} {a : Int} (h : addressExists cfg a = true) : a.toNat < cfg.memLimit := by
  simp only [addressExists, Bool.and_eq_true, decide_eq_true_eq] at h
  omega

theorem readCells_lt {i : ParamIndex} {m : Mode} {s : State} (h : readFault i m s = none) :
    ∀ a ∈ readCells i m s, a < s.cfg.memLimit := by
  rw [readFault_eq_none_iff] at h
  simp only [readable, Bool.and_eq_true, Bool.or_eq_true, decide_eq_true_eq] at h
  obtain ⟨⟨hcell, _⟩, haddr⟩ := h
  cases m with
  | immediate => simpa [readCells] using hcell
  | position | relative | undefined k =>
    simpa [readCells, hcell] using addressExists_toNat_lt (haddr.resolve_left nofun)

theorem writeCells_lt {i : ParamIndex} {m : Mode} {s : State} (h : writeFault i m s = none) :
    ∀ a ∈ [paramCell i s, writeTarget i m s], a < s.cfg.memLimit := by
  rw [writeFault_eq_none_iff] at h
  simp only [writable, Bool.and_eq_true, decide_eq_true_eq] at h
  obtain ⟨⟨hcell, _⟩, haddr⟩ := h
  simpa [hcell, writeTarget] using addressExists_toNat_lt haddr

theorem twoReads_lt {m1 m2 : Mode} {s : State} (h : twoReadsFault m1 m2 s = none) :
    ∀ a ∈ readCells .first m1 s ++ readCells .second m2 s, a < s.cfg.memLimit := by
  obtain ⟨h1, h2⟩ := Option.or_eq_none_iff.1 h
  exact List.forall_mem_append.2 ⟨readCells_lt h1, readCells_lt h2⟩

theorem readsAndTarget_lt {m1 m2 m3 : Mode} {s : State}
    (h : (twoReadsFault m1 m2 s).or (writeFault .third m3 s) = none) :
    ∀ a ∈ readCells .first m1 s ++ readCells .second m2 s ++ [paramCell .third s, writeTarget .third m3 s],
      a < s.cfg.memLimit := by
  obtain ⟨hr, hw⟩ := Option.or_eq_none_iff.1 h
  exact List.forall_mem_append.2 ⟨twoReads_lt hr, writeCells_lt hw⟩

/-- Every cell that an instruction without a fault accesses lies in the memory (R30, R32, R36). -/
theorem accessedCells_lt {i : Instr} {s : State} (h : firstFault i s = none) :
    ∀ a ∈ accessedCells i s, a < s.cfg.memLimit := by
  cases i with
  | add m1 m2 m3 | mul m1 m2 m3 => exact readsAndTarget_lt (Option.or_eq_none_iff.1 h).1
  | lt m1 m2 m3 | eq m1 m2 m3 => exact readsAndTarget_lt h
  | jt m1 m2 | jf m1 m2 => exact twoReads_lt (Option.or_eq_none_iff.1 h).1
  | arb m1 => exact readCells_lt (Option.or_eq_none_iff.1 h).1
  | out m1 => exact readCells_lt h
  | inp m1 =>
    by_cases hq : s.iq = []
    · simp [accessedCells, hq]
    · simp only [firstFault, accessedCells, hq, if_false] at h ⊢
      exact writeCells_lt h
  | hlt => simp [accessedCells]

theorem extent_nextMem_le {i : Instr} {s : State} (h : firstFault i s = none) (he : s.mem.extent ≤ s.cfg.memLimit) :
    (nextMem i s).extent ≤ s.cfg.memLimit := by
  rw [extent_nextMem]
  exact (Memory.extent_touchAll_le_iff _ _ _).2 ⟨he, accessedCells_lt h⟩

/-! ## The pc after an instruction -/

theorem paramCell_mem_readCells (i : ParamIndex) (m : Mode) (s : State) : paramCell i s ∈ readCells i m s := by
  cases m <;> simp [readCells]

/-- An instruction that completes has all its words in the memory. -/
theorem lastCell_lt {i : Instr} {s : State} (hf : firstFault i s = none) (hpc : s.pc.toNat < s.cfg.memLimit)
    (hrun : nextRunState i s = .running) : s.pc.toNat + i.arity < s.cfg.memLimit := by
  have hlt := accessedCells_lt hf
  cases i with
  | add m1 m2 m3 | mul m1 m2 m3 | lt m1 m2 m3 | eq m1 m2 m3 =>
    exact hlt (paramCell .third s) (by simp [accessedCells])
  | jt m1 m2 | jf m1 m2 =>
    exact hlt (paramCell .second s) (List.mem_append_right _ (paramCell_mem_readCells .second m2 s))
  | out m1 | arb m1 => exact hlt (paramCell .first s) (paramCell_mem_readCells .first m1 s)
  | inp m1 =>
    have hq : s.iq ≠ [] := fun hq => by simp [nextRunState, hq] at hrun
    exact hlt (paramCell .first s) (by simp [accessedCells, hq])
  | hlt => exact hpc

/-- Moving on from a pc whose instruction lies below 2^63 does not wrap (R14). -/
theorem pc_add_toNat {pc : Word} {n : Nat} (h : pc.toNat + n ≤ 2 ^ 63) :
    (pc + BitVec.ofNat 64 n).toNat = pc.toNat + n := by
  rw [BitVec.toNat_add, BitVec.toNat_ofNat]
  omega

/-- An instruction that completes and is no jump moves the pc on by its length (R14). -/
theorem nextPc_of_not_jump {i : Instr} {s : State} (hj : i.arity ≠ 2) (hrun : nextRunState i s = .running) :
    nextPc i s = s.pc + BitVec.ofNat 64 i.length := by
  cases i with
  | inp m1 =>
    have hq : s.iq ≠ [] := fun hq => by simp [nextRunState, hq] at hrun
    simp [nextPc, hq, Instr.length, Instr.arity]
  | jt m1 m2 | jf m1 m2 => exact absurd rfl hj
  | hlt => cases hrun
  | add m1 m2 m3 | mul m1 m2 m3 | lt m1 m2 m3 | eq m1 m2 m3 | out m1 | arb m1 => rfl

/-- The pc after an instruction that completes lies past its last word, still below the bound of R14, when it moves
on. -/
theorem pc_add_length_toNat {i : Instr} {s : State} (hf : firstFault i s = none)
    (hpc : s.pc.toNat < s.cfg.memLimit) (hlim : s.cfg.memLimit ≤ 2 ^ 63) (hrun : nextRunState i s = .running) :
    (s.pc + BitVec.ofNat 64 i.length).toNat = s.pc.toNat + i.length ∧ s.pc.toNat + i.length ≤ 2 ^ 63 := by
  have hlast := lastCell_lt hf hpc hrun
  have hlen : s.pc.toNat + i.length ≤ 2 ^ 63 := by unfold Instr.length; omega
  exact ⟨pc_add_toNat hlen, hlen⟩

/-- A halt or a suspension leaves the pc where it is (R14). -/
theorem nextPc_of_stopped {i : Instr} {s : State} (hs : s.state = .running) (hstop : nextRunState i s ≠ .running) :
    nextPc i s = s.pc := by
  cases i with
  | hlt => rfl
  | inp m1 =>
    by_cases hq : s.iq = []
    · simp [nextPc, hq]
    · simp [nextRunState, hq, hs] at hstop
  | add m1 m2 m3 | mul m1 m2 m3 | lt m1 m2 m3 | eq m1 m2 m3 | out m1 | jt m1 m2 | jf m1 m2 | arb m1 =>
    exact absurd hs hstop

/-- The target of a taken jump without a fault is not negative, so it lies below 2^63; a jump not taken moves on (R69
to R71). -/
theorem jumpPc_cases {taken : Prop} [Decidable taken] {target next : Word}
    (h : jumpFault (decide taken) target.toInt = none) :
    (if taken then target else next).toNat < 2 ^ 63 ∨ (if taken then target else next) = next := by
  by_cases ht : taken
  · have hw : ¬ target.toInt < 0 := by simpa [jumpFault, ht] using h
    rw [BitVec.toInt_eq_toNat_cond] at hw
    rw [if_pos ht]
    split at hw <;> omega
  · exact .inr (if_neg ht)

theorem nextPc_of_jump {i : Instr} {s : State} (hj : i.arity = 2) (hf : firstFault i s = none) :
    (nextPc i s).toNat < 2 ^ 63 ∨ nextPc i s = s.pc + BitVec.ofNat 64 i.length := by
  cases i with
  | jt m1 m2 | jf m1 m2 => exact jumpPc_cases (Option.or_eq_none_iff.1 hf).2
  | add m1 m2 m3 | mul m1 m2 m3 | lt m1 m2 m3 | eq m1 m2 m3 | inp m1 | out m1 | arb m1 | hlt => cases hj

/-- The pc is at most 2^63 after every instruction without a fault (R14). -/
theorem nextPc_le {i : Instr} {s : State} (hs : s.state = .running) (hf : firstFault i s = none)
    (hpc : s.pc.toNat < s.cfg.memLimit) (hlim : s.cfg.memLimit ≤ 2 ^ 63) : (nextPc i s).toNat ≤ 2 ^ 63 := by
  by_cases hrun : nextRunState i s = .running
  · obtain ⟨hadd, hle⟩ := pc_add_length_toNat hf hpc hlim hrun
    by_cases hj : i.arity = 2
    · rcases nextPc_of_jump hj hf with hlt | hseq
      · exact hlt.le
      · rwa [hseq, hadd]
    · rwa [nextPc_of_not_jump hj hrun, hadd]
  · rw [nextPc_of_stopped hs hrun]
    omega

end Sys2Proof.Machine
end

section
/-! SUPPORT. What a step can do, for the rules of 10_state.md: the completed instruction read off the state before the
fetch, and the host commands, said once. -/

namespace Sys2Proof.Machine

/-! ## The completed instruction, read off the state before its fetch -/

@[simp] theorem completed_pc (i : Instr) (s : State) : (completed i s).pc = nextPc i s := rfl
@[simp] theorem completed_rb (i : Instr) (s : State) : (completed i s).rb = nextRb i s := rfl
@[simp] theorem completed_iq (i : Instr) (s : State) : (completed i s).iq = nextIq i s := rfl
@[simp] theorem completed_oq (i : Instr) (s : State) : (completed i s).oq = nextOq i s := rfl
@[simp] theorem completed_mem (i : Instr) (s : State) : (completed i s).mem = nextMem i s := rfl
@[simp] theorem completed_cfg (i : Instr) (s : State) : (completed i s).cfg = s.cfg := rfl
@[simp] theorem completed_steps (i : Instr) (s : State) : (completed i s).steps = s.steps := rfl
@[simp] theorem completed_fault (i : Instr) (s : State) : (completed i s).fault = s.fault := rfl
@[simp] theorem completed_busy (i : Instr) (s : State) : (completed i s).busy = s.busy := rfl
@[simp] theorem completed_commands (i : Instr) (s : State) : (completed i s).commands = s.commands := rfl
@[simp] theorem completed_replies (i : Instr) (s : State) : (completed i s).replies = s.replies := rfl
@[simp] theorem completed_freeDraws (i : Instr) (s : State) : (completed i s).freeDraws = s.freeDraws := rfl
@[simp] theorem completed_state (i : Instr) (s : State) : (completed i s).state = nextRunState i s := rfl

/-! The fetch is a zero-fill extension (R60). -/

@[simp] theorem nextPc_fetched (i : Instr) (s : State) : nextPc i (fetched s) = nextPc i s :=
  nextPc_touched i s [s.pc.toNat]

@[simp] theorem nextRb_fetched (i : Instr) (s : State) : nextRb i (fetched s) = nextRb i s :=
  nextRb_touched i s [s.pc.toNat]

@[simp] theorem nextIq_fetched (i : Instr) (s : State) : nextIq i (fetched s) = nextIq i s :=
  nextIq_touched i s [s.pc.toNat]

@[simp] theorem nextOq_fetched (i : Instr) (s : State) : nextOq i (fetched s) = nextOq i s :=
  nextOq_touched i s [s.pc.toNat]

@[simp] theorem nextRunState_fetched (i : Instr) (s : State) : nextRunState i (fetched s) = nextRunState i s :=
  nextRunState_touched i s [s.pc.toNat]

/-- A pass that does not fault completes the instruction at the pc. -/
theorem step_completes {s t : State} {i : Instr} (hf : fetching s = true) (hd : decode (s.mem.read s.pc.toNat) = .ok i)
    (h : step s = .next t) (ht : t.safe = true) :
    firstFault i s = none ∧ t = loopTail (completed i (fetched s)) := by
  simp only [fetching, Bool.and_eq_true] at hf
  obtain ⟨_, _, _, j, hj, hnone, rfl⟩ := step_unfaulted hf.1.1 h ht
  rw [hd, Except.ok.injEq] at hj
  subst hj
  exact ⟨hnone, rfl⟩

/-! ## The host commands -/

/-- The commands that load an image in place of all that the engine holds (R105, R106). -/
def Command.Loads (c : Command) (image : List Word) : Prop := c = .reset image ∨ c = .fromProgram image

/-- All that an accepted host command can do to the machine: load an image, begin a `run`, or, on an
engine that has not faulted, touch the queues and answer. -/
theorem hostCommand_cases {c : Command} {s t : State} (h : hostCommand c s = .next t) :
    s.busy = false ∧
      ((∃ image r, c.Loads image ∧ legalImage s.cfg image = true ∧ t = (loadState image s).reply r) ∨
        (s.safe = true ∧ c = .run ∧ t = ((s.setRunState .running).setBusy true).setSteps 0) ∨
        (s.safe = true ∧ ∃ iq oq r, t = ((s.setIq iq).setOq oq).reply r)) := by
  unfold hostCommand at h
  split at h
  · cases h
  · next hb =>
    refine ⟨by simpa using hb, ?_⟩
    split at h
    · cases h
    · next hfaulted =>
      have hsafe (hc : c.makesInstance = false) : s.safe = true := by
        simpa [State.safe] using fun hs => hfaulted ⟨hs, hc⟩
      cases c with
      | fromProgram image =>
        simp only [commandFromProgram] at h
        split at h
        · next hl => cases h; exact .inl ⟨image, _, .inr rfl, hl, rfl⟩
        · cases h
      | reset image =>
        simp only [commandReset] at h
        split at h
        · next hl => cases h; exact .inl ⟨image, _, .inl rfl, hl, rfl⟩
        · cases h
      | run =>
        simp only [commandRun] at h
        split at h <;> cases h
        · exact .inr (.inr ⟨hsafe rfl, s.iq, s.oq, _, rfl⟩)
        · exact .inr (.inl ⟨hsafe rfl, rfl, rfl⟩)
        · exact .inr (.inl ⟨hsafe rfl, rfl, rfl⟩)
      | readOutput =>
        simp only [commandReadOutput] at h
        split at h <;> cases h
        · exact .inr (.inr ⟨hsafe rfl, s.iq, s.oq, _, rfl⟩)
        · next v rest hq => exact .inr (.inr ⟨hsafe rfl, s.iq, rest, _, rfl⟩)
      | writeInput v => cases h; exact .inr (.inr ⟨hsafe rfl, s.iq ++ [v], s.oq, _, rfl⟩)
      | halted => cases h; exact .inr (.inr ⟨hsafe rfl, s.iq, s.oq, _, rfl⟩)
      | peekMemory => cases h; exact .inr (.inr ⟨hsafe rfl, s.iq, s.oq, _, rfl⟩)

/-- A step that leaves the engine unfaulted completes the instruction at the pc, or takes a command that loads an
image, or takes one that leaves the memory, the pc and `rb` alone. -/
theorem step_safe_cases {s t : State} (h : step s = .next t) (ht : t.safe = true) :
    (s.busy = true ∧ ∃ i, decode (s.mem.read s.pc.toNat) = .ok i ∧ t = loopTail (completed i (fetched s))) ∨
    (s.busy = false ∧
      ∃ image rest, s.commands = .reset image :: rest ∨ s.commands = .fromProgram image :: rest) ∨
    (s.busy = false ∧ t.mem = s.mem ∧ t.pc = s.pc ∧ t.rb = s.rb) := by
  cases hb : s.busy with
  | true =>
    obtain ⟨_, _, _, i, hd, _, rfl⟩ := step_unfaulted hb h ht
    exact .inl ⟨rfl, i, hd, rfl⟩
  | false =>
    right
    cases hc : s.commands with
    | nil => simp [step, engineStep, hb, idleStep, hc] at h
    | cons c rest =>
      rw [step_command hb hc] at h
      rcases (hostCommand_cases h).2 with ⟨image, _, hload, _⟩ | ⟨_, _, rfl⟩ | ⟨_, _, _, _, rfl⟩
      · exact .inl ⟨rfl, image, rest, hload.imp (by rw [·]) (by rw [·])⟩
      · exact .inr ⟨rfl, rfl, rfl, rfl⟩
      · exact .inr ⟨rfl, rfl, rfl, rfl⟩

end Sys2Proof.Machine
end

section
/-! The invariant of the machine, kept by each thing a step can do (10_state.md R14, R19, R23; 60_exceptions.md R86,
R91). -/

namespace Sys2Proof.Machine

theorem memLimit_le_of_legal {c : Config} (h : c.legal = true) : c.memLimit ≤ 2 ^ 63 := by
  simp only [Config.legal, Bool.and_eq_true, decide_eq_true_eq] at h
  exact h.1.2

theorem State.safe_iff (s : State) : s.safe = true ↔ s.state ≠ .faulted := by simp [State.safe]

/-- The fault record is absent where the engine has not faulted. -/
theorem State.Inv.fault_none {s : State} (h : s.Inv) (hs : s.safe = true) : s.fault = none := by
  simpa using h.fault_iff.not.2 ((s.safe_iff).1 hs)

/-- Taking a fault (R86): nothing is claimed of the unspecified values but the canonical form of the memory. -/
theorem State.Inv.after_fault {s : State} (h : s.Inv) (w : Option Word) (r : Raise) : (takeFault w r s).Inv where
  cfg_legal := h.cfg_legal
  mem_wf := wf_freeMemory s.freeDraws
  extent_pos := nofun
  extent_le := nofun
  pc_le := nofun
  busy_running := nofun
  fault_iff := by simp
  steps_le := h.steps_le

/-- The fetch's extension (R60). -/
theorem State.Inv.after_fetch {s : State} (h : s.Inv) (hpc : s.pc.toNat < s.cfg.memLimit) : (fetched s).Inv where
  cfg_legal := h.cfg_legal
  mem_wf := Memory.wf_touch h.mem_wf _
  extent_pos hs := by
    have := h.extent_pos hs
    simp only [State.setMem_mem, Memory.extent_touch]
    omega
  extent_le hs := by
    have := h.extent_le hs
    simp only [State.setMem_mem, State.setMem_cfg, Memory.extent_touch]
    omega
  pc_le := h.pc_le
  busy_running := h.busy_running
  fault_iff := h.fault_iff
  steps_le := h.steps_le

/-- The loop's tail ends a `run` that has halted or been suspended (R91). -/
theorem loopTail_busy_of_stopped {t : State} (hrun : t.state ≠ .running) (hsafe : t.safe = true) :
    (loopTail t).busy = false := by
  unfold loopTail
  split
  · next h => exact absurd h hrun
  · rfl
  · rfl
  · next h => exact absurd h ((t.safe_iff).1 hsafe)

theorem loopTail_steps_le (t : State) : (loopTail t).steps ≤ t.steps + 1 := by
  unfold loopTail
  split <;> simp

theorem nextRunState_ne_faulted {s : State} (hs : s.state = .running) (i : Instr) : nextRunState i s ≠ .faulted := by
  cases i with
  | hlt => nofun
  | inp m1 => by_cases hq : s.iq = [] <;> simp [nextRunState, hq, hs]
  | add m1 m2 m3 | mul m1 m2 m3 | out m1 | jt m1 m2 | jf m1 m2 | lt m1 m2 m3 | eq m1 m2 m3 | arb m1 =>
    exact hs.trans_ne (by decide)

/-- A completed instruction with the loop's tail (R91): the step it counts stays within a budget that was not
spent. -/
theorem State.Inv.after_completion {s : State} (h : s.Inv) {i : Instr} (hs : s.state = .running)
    (hb : budgetSpent s = false) (hpc : s.pc.toNat < s.cfg.memLimit) (hf : firstFault i s = none) :
    (loopTail (completed i s)).Inv := by
  have hs' : s.safe = true := by simp [State.safe, hs]
  have hne := nextRunState_ne_faulted hs i
  have hlim := memLimit_le_of_legal h.cfg_legal
  exact
    { cfg_legal := by simpa using h.cfg_legal
      mem_wf := by simpa using wf_nextMem h.mem_wf i
      extent_pos := fun _ => by simpa using (h.extent_pos hs').trans (extent_le_extent_nextMem i s)
      extent_le := fun _ => by simpa using extent_nextMem_le hf (h.extent_le hs')
      pc_le := fun _ => by simpa using nextPc_le hs hf hpc hlim
      busy_running := fun hbusy => by
        by_contra hrun
        rw [loopTail_state] at hrun
        rw [loopTail_busy_of_stopped hrun ((State.safe_iff _).2 hne)] at hbusy
        cases hbusy
      fault_iff := by simp [h.fault_none hs', hne]
      steps_le := fun n hn => by
        rw [loopTail_cfg, completed_cfg] at hn
        have hle := h.steps_le n hn
        have hspent : s.steps ≠ n := fun heq => by simp [budgetSpent, hn, heq] at hb
        have htail := loopTail_steps_le (completed i s)
        rw [completed_steps] at htail
        omega }

/-- The invariant says nothing of the queues and of the host's side of the interface. -/
theorem State.Inv.with_hostSide {s : State} (h : s.Inv) (iq oq : List Word) (commands : List Command)
    (replies : List Reply) :
    ({ s with iq := iq, oq := oq, commands := commands, replies := replies } : State).Inv :=
  ⟨h.cfg_legal, h.mem_wf, h.extent_pos, h.extent_le, h.pc_le, h.busy_running, h.fault_iff, h.steps_le⟩

/-- The load state of a legal image (R26, R105, R106). -/
theorem State.Inv.after_load {s : State} (h : s.Inv) {image : List Word} (hl : legalImage s.cfg image = true)
    (r : Reply) : ((loadState image s).reply r).Inv := by
  simp only [legalImage, Bool.and_eq_true, decide_eq_true_eq] at hl
  obtain ⟨hne, hlen⟩ := hl
  exact
    { cfg_legal := h.cfg_legal
      mem_wf := Memory.wf_ofImage image
      extent_pos := fun _ => List.length_pos_of_ne_nil hne
      extent_le := fun _ => hlen
      pc_le := fun _ => by simp
      busy_running := nofun
      fault_iff := by simp
      steps_le := fun n _ => Nat.zero_le n }

/-- The beginning of a `run` of an engine that has not faulted (R91). -/
theorem State.Inv.after_runBegins {s : State} (h : s.Inv) (hs : s.safe = true) :
    (((s.setRunState .running).setBusy true).setSteps 0).Inv where
  cfg_legal := h.cfg_legal
  mem_wf := h.mem_wf
  extent_pos _ := h.extent_pos hs
  extent_le _ := h.extent_le hs
  pc_le _ := h.pc_le hs
  busy_running _ := rfl
  fault_iff := by simp [h.fault_none hs]
  steps_le n _ := Nat.zero_le n

/-- An accepted host command keeps the invariant. -/
theorem State.Inv.after_command {s t : State} (h : s.Inv) {c : Command} (hc : hostCommand c s = .next t) : t.Inv := by
  rcases (hostCommand_cases hc).2 with ⟨image, r, _, hl, rfl⟩ | ⟨hs, _, rfl⟩ | ⟨_, iq, oq, r, rfl⟩
  · exact h.after_load hl r
  · exact h.after_runBegins hs
  · exact h.with_hostSide iq oq s.commands (s.replies ++ [r])

/-- An instruction with the loop's tail keeps the invariant, whether it faults or completes. -/
theorem State.Inv.after_pass {s u : State} (h : s.Inv) {i : Instr} (hs : s.state = .running)
    (hb : budgetSpent s = false) (hpc : s.pc.toNat < s.cfg.memLimit) (hu : exec i s = .next u) :
    (loopTail u).Inv := by
  rcases exec_cases hu with ⟨r, _, rfl⟩ | ⟨hf, rfl⟩
  · exact h.after_fault _ r
  · exact h.after_completion hs hb hpc hf

/-- Settles O36: each of the five things a step can be keeps the invariant. -/
theorem everyStepKeepsTheInvariant : Obligations.EveryStepKeepsTheInvariant := by
  intro s t h hstep
  rcases step_cases hstep with
    ⟨_, _, _, rfl⟩ | ⟨_, _, _, _, rfl⟩ | ⟨_, _, _, hpc, _, rfl⟩ | ⟨_, hs, hb, hpc, i, u, _, hu, rfl⟩ |
      ⟨_, c, rest, _, hc⟩
  · exact h.after_fault _ _
  · exact h.after_fault _ _
  · exact (h.after_fetch hpc).after_fault _ _
  · exact (h.after_fetch hpc).after_pass hs hb hpc hu
  · exact (h.with_hostSide s.iq s.oq rest s.replies).after_command hc

/-- Settles O37: every field of the load state is at the value R26 gives it. -/
theorem resetMeetsTheInvariant : Obligations.ResetMeetsTheInvariant where
  cfg_legal := rfl
  mem_wf := rfl
  extent_pos _ := Nat.le_refl 1
  extent_le _ := by decide
  pc_le _ := by decide
  busy_running := nofun
  fault_iff := by decide
  steps_le := nofun

end Sys2Proof.Machine
end

section
/-! The rules of the registers, the queues and the extent over every step that leaves the engine unfaulted
(10_state.md R14, R15, R22, R24, R25; 42_jumps.md R71). -/

namespace Sys2Proof.Machine

/-- Settles O27: an instruction leaves `nextRb`, which only ARB makes other than `rb`; a command keeps `rb` unless it
loads. -/
theorem onlyAdjustBaseWritesRb : Obligations.OnlyAdjustBaseWritesRb := by
  intro s t hstep ht hrb
  rcases step_safe_cases hstep ht with ⟨hb, i, hd, rfl⟩ | hload | ⟨_, _, _, hkeep⟩
  · refine .inl ⟨hb, ?_⟩
    rw [loopTail_rb, completed_rb, nextRb_fetched] at hrb
    cases i with
    | arb m1 => exact ⟨m1, hd⟩
    | add m1 m2 m3 | mul m1 m2 m3 | inp m1 | out m1 | jt m1 m2 | jf m1 m2 | lt m1 m2 m3 | eq m1 m2 m3 | hlt =>
      exact absurd rfl hrb
  · exact .inr hload
  · exact absurd hkeep hrb

/-- Settles O32: the accesses of an instruction only grow the extent, and a command keeps the memory unless it
loads. -/
theorem extentShrinksOnlyByALoad : Obligations.ExtentShrinksOnlyByALoad := by
  intro s t hstep ht hlt
  rcases step_safe_cases hstep ht with ⟨_, i, _, rfl⟩ | hload | ⟨_, hkeep, _, _⟩
  · have hfetch : s.mem.extent ≤ (fetched s).mem.extent := by
      rw [State.setMem_mem, Memory.extent_touch]
      exact Nat.le_max_left _ _
    have hexec := extent_le_extent_nextMem i (fetched s)
    rw [loopTail_mem, completed_mem] at hlt
    omega
  · exact hload
  · rw [hkeep] at hlt
    omega

/-- Settles O28: the pc after the step is `nextPc`, clause by clause of its definition. -/
theorem onlyTakenJumpsLeaveTheSequence : Obligations.OnlyTakenJumpsLeaveTheSequence := by
  intro s t i hf _ hd hstep ht
  have hpc : t.pc = nextPc i s := by
    obtain ⟨_, rfl⟩ := step_completes hf hd hstep ht
    simp
  rw [hpc]
  refine ⟨?hlt, ?inp, ?jt, ?jf, ?others⟩
  case hlt => rintro rfl; rfl
  case inp => rintro m1 rfl; rfl
  case jt => rintro m1 m2 rfl; rfl
  case jf => rintro m1 m2 rfl; rfl
  case others =>
    intro hop
    cases i with
    | add m1 m2 m3 | mul m1 m2 m3 | lt m1 m2 m3 | eq m1 m2 m3 | out m1 | arb m1 => rfl
    | inp m1 | jt m1 m2 | jf m1 m2 | hlt => simp [Instr.opcode] at hop

/-- Settles O29: the last word of a completed instruction lies in the memory, so the pc after it is at most
`MEM_LIMIT`. -/
theorem pcNeverWraps : Obligations.PcNeverWraps := by
  intro s t i h hf hpc hd hstep hrun
  have hs : s.state = .running := by
    simp only [fetching, Bool.and_eq_true, decide_eq_true_eq] at hf
    exact hf.1.2
  have hlim := memLimit_le_of_legal h.cfg_legal
  obtain ⟨hnone, rfl⟩ := step_completes hf hd hstep (by simp [State.safe, hrun])
  rw [loopTail_state, completed_state, nextRunState_fetched] at hrun
  rw [loopTail_pc, completed_pc, nextPc_fetched]
  obtain ⟨hadd, -⟩ := pc_add_length_toNat hnone hpc hlim hrun
  refine ⟨nextPc_le hs hnone hpc hlim, ?sequential, ?jt, ?jf⟩
  case sequential =>
    intro hj
    rwa [nextPc_of_not_jump hj hrun]
  case jt =>
    rintro m1 m2 rfl hzero
    rw [nextPc, if_neg (not_not_intro hzero)]
    exact hadd
  case jf =>
    rintro m1 m2 rfl hzero
    rw [nextPc, if_neg hzero]
    exact hadd

/-- Settles O30: a busy step leaves `nextIq` and `nextOq`, which only IN and OUT make other than the queues. -/
theorem queuesChangeOnlyByTheirInstruction : Obligations.QueuesChangeOnlyByTheirInstruction := by
  intro s t hb hstep ht
  obtain ⟨_, _, _, i, hd, _, rfl⟩ := step_unfaulted hb hstep ht
  rw [loopTail_iq, loopTail_oq, completed_iq, completed_oq, nextIq_fetched, nextOq_fetched]
  constructor
  · intro hiq
    cases i with
    | inp m1 =>
      cases hq : s.iq with
      | nil => simp [nextIq, hq] at hiq
      | cons v rest => exact ⟨m1, v, hd, by simp [nextIq, hq]⟩
    | add m1 m2 m3 | mul m1 m2 m3 | out m1 | jt m1 m2 | jf m1 m2 | lt m1 m2 m3 | eq m1 m2 m3 | arb m1 | hlt =>
      exact absurd rfl hiq
  · intro hoq
    cases i with
    | out m1 => exact ⟨m1, hd, rfl⟩
    | add m1 m2 m3 | mul m1 m2 m3 | inp m1 | jt m1 m2 | jf m1 m2 | lt m1 m2 m3 | eq m1 m2 m3 | arb m1 | hlt =>
      exact absurd rfl hoq

end Sys2Proof.Machine
end

section
/-! SUPPORT. What an instruction that does not fault does to the memory, cell by cell and to the extent (20_memory.md
R32 to R36), and what a parameter that does not fault resolves to (30_encoding.md R53, R54). -/

namespace Sys2Proof.Machine

/-! ## The extent -/

/-- An access of a cell that exists extends nothing (R32). -/
theorem Memory.touch_of_lt {m : Memory} {a : Nat} (h : a < m.extent) : m.touch a = m :=
  if_neg (Nat.not_le_of_lt h)

theorem Memory.extent_touchAll (m : Memory) (cells : List Nat) :
    (m.touchAll cells).extent = cells.foldl (fun len a => max len (a + 1)) m.extent :=
  (List.foldl_hom Memory.extent fun m a => (m.extent_touch a).symm).symm

/-- The cell an instruction writes exists afterwards (R34). -/
theorem lt_extent_nextMem {i : Instr} {s : State} {c : Nat} {w : Word} (h : storedWord i s = some (c, w)) :
    c < (nextMem i s).extent := by
  simp only [nextMem, h, Memory.extent_write]
  omega

/-- The fetch and the accesses of the instruction extend the memory one after the other (R32, R36). -/
theorem extent_nextMem_fetched (i : Instr) (s : State) :
    (nextMem i (fetched s)).extent = (s.mem.touchAll (s.pc.toNat :: accessedCells i s)).extent := by
  rw [extent_nextMem, show fetched s = s.setMem (s.mem.touchAll [s.pc.toNat]) from rfl, accessedCells_touched]
  rfl

/-! ## The cells -/

theorem read_nextMem_of_storedWord_eq_none {i : Instr} {s : State} (h : storedWord i s = none) (a : Nat) :
    (nextMem i s).read a = s.mem.read a := by
  simp only [nextMem, h, Memory.read_touchAll]

theorem read_nextMem_of_ne {i : Instr} {s : State} {c a : Nat} {w : Word} (h : storedWord i s = some (c, w))
    (ha : a ≠ c) : (nextMem i s).read a = s.mem.read a := by
  simp only [nextMem, h, Memory.read_write_ne _ w ha, Memory.read_touchAll]

theorem read_nextMem_stored {i : Instr} {s : State} {c : Nat} {w : Word} (hwf : s.mem.wf = true)
    (h : storedWord i s = some (c, w)) : (nextMem i s).read c = w := by
  simp only [nextMem, h]
  exact Memory.read_write_same (Memory.wf_touchAll hwf _) c w

/-! ## Accesses of the memory and of an unbounded array -/

theorem CellAccess.wf_onMemory {m : Memory} (h : m.wf = true) (c : CellAccess) : (c.onMemory m).wf = true := by
  rcases c with ⟨a, _ | v⟩
  · exact Memory.wf_touch h a
  · exact Memory.wf_write h a v

/-- An access does to the cells what it does to an unbounded array (R35). -/
theorem CellAccess.read_onMemory {m : Memory} (h : m.wf = true) (c : CellAccess) :
    (c.onMemory m).read = c.onArray m.read := by
  funext b
  rcases c with ⟨a, _ | v⟩
  · exact m.read_touch a b
  · by_cases hb : b = a
    · subst hb
      exact (Memory.read_write_same h b v).trans (if_pos rfl).symm
    · exact (m.read_write_ne v hb).trans (if_neg hb).symm

theorem CellAccess.extent_onMemory (m : Memory) (c : CellAccess) :
    (c.onMemory m).extent = max m.extent (c.1 + 1) := by
  rcases c with ⟨a, _ | v⟩
  · exact m.extent_touch a
  · exact m.extent_write a v

theorem read_foldl_onMemory {m : Memory} (h : m.wf = true) (accesses : List CellAccess) :
    (accesses.foldl CellAccess.onMemory m).read = accesses.foldl CellAccess.onArray m.read := by
  induction accesses generalizing m with
  | nil => rfl
  | cons c rest ih =>
    rw [List.foldl_cons, List.foldl_cons, ih (c.wf_onMemory h), c.read_onMemory h]

theorem extent_foldl_onMemory (m : Memory) (accesses : List CellAccess) :
    (accesses.foldl CellAccess.onMemory m).extent = accesses.foldl (fun len c => max len (c.1 + 1)) m.extent :=
  (List.foldl_hom Memory.extent fun m c => (c.extent_onMemory m).symm).symm

/-! ## Parameters that resolve -/

theorem readParam_of_no_fault {i : ParamIndex} {m : Mode} {s : State} (h : readFault i m s = none) :
    readParam i m s = .ok (operandValue i m s, s.setMem (s.mem.touchAll (readCells i m s))) := by
  rw [readParam_spec, h]

theorem writeAddr_of_no_fault {i : ParamIndex} {m : Mode} {s : State} (h : writeFault i m s = none) :
    writeAddr i m s = .ok (writeTarget i m s, s.setMem (s.mem.touchAll [paramCell i s])) := by
  rw [writeAddr_spec, h]

/-- A parameter in mode 0 or 2 whose word and address lie in the memory resolves, as an operand to the cell at its
exact address and as a write target to that address (R53, R54): in these two modes both resolutions have the same
faults. -/
theorem resolves_at_operandAddress {i : ParamIndex} {m : Mode} {s : State} (hm : m.legalWrite = true)
    (hcell : paramCell i s < s.cfg.memLimit) (ha : addressExists s.cfg (operandAddress i m s) = true) :
    (∃ t, readParam i m s = .ok (s.mem.read (operandAddress i m s).toNat, t)) ∧
      (∃ t, writeAddr i m s = .ok ((operandAddress i m s).toNat, t)) := by
  have hwrite : writeFault i m s = none := (writeFault_eq_none_iff i m s).2 (by simp [writable, hcell, hm, ha])
  cases m with
  | position => exact ⟨⟨_, readParam_of_no_fault (m := .position) hwrite⟩, ⟨_, writeAddr_of_no_fault hwrite⟩⟩
  | relative => exact ⟨⟨_, readParam_of_no_fault (m := .relative) hwrite⟩, ⟨_, writeAddr_of_no_fault hwrite⟩⟩
  | immediate | undefined k => cases hm

/-! ## Instructions that do not fault -/

theorem exec_safe {i : Instr} {s t : State} (h : exec i s = .next t) (ht : t.safe = true) :
    firstFault i s = none ∧ t = completed i s := by
  rcases exec_cases h with ⟨r, _, rfl⟩ | hdone
  · cases ht
  · exact hdone

theorem keepsMachine_completed (i : Instr) (s : State) : keepsMachine s (completed i s) :=
  ⟨rfl, rfl, rfl, rfl, rfl, rfl, rfl⟩

theorem exec_safe_nonStoring {i : Instr} {s t : State} (hi : storedWord i s = none) (h : exec i s = .next t)
    (ht : t.safe = true) : t = completed i s ∧ keepsMachine s t ∧ keepsCells s t := by
  obtain ⟨_, rfl⟩ := exec_safe h ht
  exact ⟨rfl, keepsMachine_completed i s, read_nextMem_of_storedWord_eq_none hi⟩

theorem writeFault_of_storing {m1 m2 m3 : Mode} {i : Instr} {s : State}
    (hi : i ∈ [Instr.add m1 m2 m3, .mul m1 m2 m3, .lt m1 m2 m3, .eq m1 m2 m3]) (hf : firstFault i s = none) :
    writeFault .third m3 s = none := by
  simp only [List.mem_cons, List.not_mem_nil, or_false] at hi
  rcases hi with rfl | rfl | rfl | rfl
  · exact (Option.or_eq_none_iff.1 (Option.or_eq_none_iff.1 hf).1).2
  · exact (Option.or_eq_none_iff.1 (Option.or_eq_none_iff.1 hf).1).2
  · exact (Option.or_eq_none_iff.1 hf).2
  · exact (Option.or_eq_none_iff.1 hf).2

/-- The four storing opcodes write at their third parameter's target and leave `rb`, the queues and the run state
(R64, R65, R72, R73). -/
theorem completed_of_storing {m1 m2 m3 : Mode} {i : Instr} (s : State)
    (hi : i ∈ [Instr.add m1 m2 m3, .mul m1 m2 m3, .lt m1 m2 m3, .eq m1 m2 m3]) :
    (completed i s).state = s.state ∧ (completed i s).rb = s.rb ∧ (completed i s).iq = s.iq ∧
      (completed i s).oq = s.oq ∧ ∃ w, storedWord i s = some (writeTarget .third m3 s, w) := by
  simp only [List.mem_cons, List.not_mem_nil, or_false] at hi
  rcases hi with rfl | rfl | rfl | rfl <;> exact ⟨rfl, rfl, rfl, rfl, _, rfl⟩

end Sys2Proof.Machine
end

section
/-! The memory's rules over one instruction, one step and any list of accesses (20_memory.md R31 to R36, R41, R44;
30_encoding.md R53, R54). -/

namespace Sys2Proof.Machine

/-- Settles O54: each term unfolds to the cell or the address that its mode names. -/
theorem operandsAreTheCellsTheModesName : Obligations.OperandsAreTheCellsTheModesName := by
  intro i s
  exact ⟨rfl, rfl, rfl, rfl, rfl, rfl, rfl, rfl, rfl, rfl⟩

/-- Settles O55: both sums are the `operandAddress` of their mode, and a parameter with its word and that address in
the memory resolves. -/
theorem resolutionUsesTheExactAddress : Obligations.ResolutionUsesTheExactAddress := by
  intro i s a hcell h0 hlt
  have ha : addressExists s.cfg a = true := by simp [addressExists, h0, hlt]
  constructor
  · rintro rfl
    exact resolves_at_operandAddress (m := .relative) rfl hcell ha
  · rintro rfl
    exact resolves_at_operandAddress (m := .position) rfl hcell ha

/-- Settles O19: the stored word stands at the third parameter's target, and a write leaves every other cell alone. -/
theorem storingInstructionsChangeOneCell : Obligations.StoringInstructionsChangeOneCell := by
  intro m1 m2 m3 i s t hi hs hexec ht
  obtain ⟨hf, rfl⟩ := exec_safe hexec ht
  obtain ⟨hstate, hrb, hiq, hoq, w, hw⟩ := completed_of_storing s hi
  have htarget := writeAddr_of_no_fault (writeFault_of_storing hi hf)
  refine ⟨keepsMachine_completed i s, hstate.trans hs, hrb, hiq, hoq, ⟨_, _, htarget⟩, ?_⟩
  intro c s' hc a ha
  rw [htarget] at hc
  cases hc
  exact read_nextMem_of_ne hw ha

/-- Settles O21: these instructions have no stored word, and an extension leaves every cell alone. -/
theorem nonStoringInstructionsKeepEveryCell : Obligations.NonStoringInstructionsKeepEveryCell := by
  intro m1 m2 s t hs ht
  refine ⟨?out, ?jt, ?jf, ?arb, ?hlt⟩
  case out | arb =>
    intro h
    obtain ⟨rfl, hmachine, hcells⟩ := exec_safe_nonStoring rfl h ht
    exact ⟨hmachine, hcells, hs, rfl, rfl⟩
  case jt | jf =>
    intro h
    obtain ⟨rfl, hmachine, hcells⟩ := exec_safe_nonStoring rfl h ht
    exact ⟨hmachine, hcells, hs, rfl, rfl, rfl⟩
  case hlt =>
    intro h
    obtain ⟨rfl, hmachine, hcells⟩ := exec_safe_nonStoring rfl h ht
    exact ⟨hmachine, hcells, rfl, rfl, rfl, rfl, rfl, rfl⟩

/-- Settles O31: the fetch touches the cell at the pc, the instruction the cells of its list, and each touch raises the
extent to one more than its cell. -/
theorem extentGrowsByTheListedAccesses : Obligations.ExtentGrowsByTheListedAccesses := by
  intro s t i hf _ hd hstep ht
  obtain ⟨_, rfl⟩ := step_completes hf hd hstep ht
  rw [loopTail_mem, completed_mem, extent_nextMem_fetched, Memory.extent_touchAll]

/-- Settles O33: the cell at the new pc holds the stored word and exists, so the next fetch reads that word and extends
nothing. -/
theorem storedWordIsTheNextInstruction : Obligations.StoredWordIsTheNextInstruction := by
  intro s t i j c w hwf hf _ hd hstored hstep hft hc hj
  have hsafe : t.safe = true := by
    simp only [fetching, Bool.and_eq_true, decide_eq_true_eq] at hft
    simp [State.safe, hft]
  obtain ⟨hnone, ht⟩ := step_completes hf hd hstep hsafe
  have hmem : t.mem = nextMem i (fetched s) := by rw [ht, loopTail_mem, completed_mem]
  have hcfg : t.cfg = s.cfg := by rw [ht, loopTail_cfg, completed_cfg, State.setMem_cfg]
  have hstored' : storedWord i (fetched s) = some (c, w) := (storedWord_touched i s [s.pc.toNat]).trans hstored
  have hword : t.mem.read t.pc.toNat = w := by
    rw [hmem, hc]
    exact read_nextMem_stored (Memory.wf_touch hwf _) hstored'
  have hlimit : t.pc.toNat < t.cfg.memLimit := by
    rw [hc, hcfg]
    exact accessedCells_lt hnone c (storedWord_mem_accessedCells hstored)
  have hexists : t.mem.touch t.pc.toNat = t.mem := by
    rw [hmem, hc]
    exact Memory.touch_of_lt (lt_extent_nextMem hstored')
  rw [step_decoded hft hlimit (by rw [hword, hj]), fetched, hexists]
  rfl

/-- Settles O35: by induction on the accesses, from the memory of the image, which reads as the image and 0 beyond
it. -/
theorem memoryReadsAsAnUnboundedArray : Obligations.MemoryReadsAsAnUnboundedArray := by
  intro image accesses
  have himage : (Memory.ofImage image).read = fun b => image.getD b 0#64 := funext (Memory.read_ofImage image)
  constructor
  · intro a
    rw [read_foldl_onMemory (Memory.wf_ofImage image), himage]
  · exact extent_foldl_onMemory (Memory.ofImage image) accesses

end Sys2Proof.Machine
end

section
/-! The decoder read as the digit fields of 30_encoding.md R47 to R49, the canonical word in the same fields (R59), and
the step around the instruction it decodes (R60, R91). -/

namespace Sys2Proof

/-! ## The fields of an instruction word -/

/-- The modes of an instruction's parameters, in index order. -/
def Instr.modes : Instr → List Mode
  | .add m1 m2 m3 | .mul m1 m2 m3 | .lt m1 m2 m3 | .eq m1 m2 m3 => [m1, m2, m3]
  | .jt m1 m2 | .jf m1 m2 => [m1, m2]
  | .inp m1 | .out m1 | .arb m1 => [m1]
  | .hlt => []

/-- The modes at the first `arity` mode digits of a number (R49). -/
def paramModes (n : Nat) : (arity : Nat) → List Mode
  | 0 => []
  | k + 1 => paramModes n k ++ [paramMode n (k + 1)]

theorem paramModes_one (n : Nat) : paramModes n 1 = [paramMode n 1] := rfl

theorem paramModes_two (n : Nat) : paramModes n 2 = [paramMode n 1, paramMode n 2] := rfl

theorem paramModes_three (n : Nat) : paramModes n 3 = [paramMode n 1, paramMode n 2, paramMode n 3] := rfl

theorem paramMode_eq_iff {n i : Nat} {m : Mode} : paramMode n i = m ↔ n / 10 ^ (i + 1) % 10 = m.digit :=
  ⟨fun h => by rw [← h, digit_paramMode], paramMode_eq⟩

/-- A word decodes to the instruction that its opcode field and the mode fields of that opcode's parameters name. -/
theorem decode_eq_ok_iff {w : Word} {i : Instr} :
    decode w = .ok i ↔
      0 ≤ w.toInt ∧ w.toNat % 100 = i.opcode ∧ paramModes w.toNat i.arity = i.modes := by
  constructor
  · intro h
    unfold decode at h
    split at h
    · cases h
    · next hneg =>
      dsimp only at h
      split at h <;> cases h
      all_goals exact ⟨Int.not_lt.1 hneg, ‹_›, rfl⟩
  · rintro ⟨hpos, hop, hmodes⟩
    have hneg : ¬ w.toInt < 0 := Int.not_lt.2 hpos
    cases i with
    | add m1 m2 m3 | mul m1 m2 m3 | lt m1 m2 m3 | eq m1 m2 m3 | jt m1 m2 | jf m1 m2 | inp m1 | out m1 | arb m1 | hlt =>
      cases hmodes
      simp only [decode, if_neg hneg, hop, Instr.opcode]

/-! ## The canonical word in these fields -/

@[simp] theorem Mode.digit_position : Mode.position.digit = 0 := rfl

/-- The lowest 2 + arity digits of a number are the canonical ones exactly when each field is the instruction's. -/
theorem mod_eq_canonical_iff (n : Nat) (i : Instr) :
    n % 10 ^ (2 + i.arity) = i.canonical ↔ n % 100 = i.opcode ∧ paramModes n i.arity = i.modes := by
  cases i with
  | add m1 m2 m3 | mul m1 m2 m3 | lt m1 m2 m3 | eq m1 m2 m3 =>
    have h1 := m1.digit_le
    have h2 := m2.digit_le
    have h3 := m3.digit_le
    simp only [Instr.arity, Instr.canonical, canonicalNumber, Instr.opcode, Instr.modes, paramModes_three,
      List.cons.injEq, and_true, paramMode_eq_iff]
    omega
  | jt m1 m2 | jf m1 m2 =>
    have h1 := m1.digit_le
    have h2 := m2.digit_le
    simp only [Instr.arity, Instr.canonical, canonicalNumber, Instr.opcode, Instr.modes, paramModes_two,
      List.cons.injEq, and_true, paramMode_eq_iff, Mode.digit_position]
    omega
  | inp m1 | out m1 | arb m1 =>
    have h1 := m1.digit_le
    simp only [Instr.arity, Instr.canonical, canonicalNumber, Instr.opcode, Instr.modes, paramModes_one,
      List.cons.injEq, and_true, paramMode_eq_iff, Mode.digit_position]
    omega
  | hlt => exact (and_iff_left rfl).symm

/-- The canonical number has no digit above the used ones. -/
theorem canonical_lt (i : Instr) : i.canonical < 10 ^ (2 + i.arity) := by
  cases i with
  | add m1 m2 m3 | mul m1 m2 m3 | lt m1 m2 m3 | eq m1 m2 m3 => exact (canonicalNumber_bounds _ m1 m2 m3 (by decide)).1
  | jt m1 m2 | jf m1 m2 =>
    have h1 := m1.digit_le
    have h2 := m2.digit_le
    simp only [Instr.arity, Instr.canonical, canonicalNumber, Mode.digit_position]
    omega
  | inp m1 | out m1 | arb m1 =>
    have h1 := m1.digit_le
    simp only [Instr.arity, Instr.canonical, canonicalNumber, Mode.digit_position]
    omega
  | hlt => decide

theorem canonicalWord_statement : (i : Instr) → Laws.CanonicalWord.Statement i
  | .add m1 m2 m3 => Laws.CanonicalWord.add m1 m2 m3
  | .mul m1 m2 m3 => Laws.CanonicalWord.mul m1 m2 m3
  | .inp m1 => Laws.CanonicalWord.inp m1
  | .out m1 => Laws.CanonicalWord.out m1
  | .jt m1 m2 => Laws.CanonicalWord.jt m1 m2
  | .jf m1 m2 => Laws.CanonicalWord.jf m1 m2
  | .lt m1 m2 m3 => Laws.CanonicalWord.lt m1 m2 m3
  | .eq m1 m2 m3 => Laws.CanonicalWord.eq m1 m2 m3
  | .arb m1 => Laws.CanonicalWord.arb m1
  | .hlt => Laws.CanonicalWord.hlt

theorem encode_toInt_nonneg (i : Instr) : 0 ≤ (encode i).toInt := by
  obtain ⟨hnat, hlt, _⟩ := canonicalWord_statement i
  rw [BitVec.toInt_eq_toNat_of_lt (by omega)]
  exact Int.natCast_nonneg _

/-! ## The statements -/

/-- Settles O3: the decoder and the lowest digits name the same fields. -/
theorem decodeReadsExactlyTheUsedDigits : Obligations.DecodeReadsExactlyTheUsedDigits := by
  intro w i
  rw [decode_eq_ok_iff, mod_eq_canonical_iff]

/-- Settles O2: the canonical word is not negative, and the canonical number has no digit above the used ones. -/
theorem decodeOfEncodeIsTheInstruction : Obligations.DecodeOfEncodeIsTheInstruction := by
  intro i
  have hdigits : (encode i).toNat % 10 ^ (2 + i.arity) = i.canonical := by
    rw [(canonicalWord_statement i).1, Nat.mod_eq_of_lt (canonical_lt i)]
  exact (decodeReadsExactlyTheUsedDigits _ i).2 ⟨encode_toInt_nonneg i, hdigits⟩

/-- Settles O1: the decoder is evaluated at each word. -/
theorem sampleWordsDecodeAsListed : Obligations.SampleWordsDecodeAsListed := by
  unfold Obligations.SampleWordsDecodeAsListed
  decide

namespace Machine

/-- Settles O5: the step is the instruction's answer under `loopTail`, whose arms the statement writes out. -/
theorem stepRunsTheDecodedInstruction : Obligations.StepRunsTheDecodedInstruction := by
  intro s i hf hpc hd
  obtain ⟨t, ht⟩ := exec_answers_next i (fetched s)
  refine ⟨t, ht, ?_⟩
  rw [step_decoded hf hpc hd, ht]
  rfl

end Machine

end Sys2Proof
end

section
/-! SUPPORT. The ALU result rule by its two outcomes (40_arithmetic.md R63, 00_scope.md R8), and the absence of a fault
read from the readable operands, the writable target and the storable result. -/

namespace Sys2Proof.Machine

/-! ## The ALU result rule -/

/-- `wrap64` is congruent to its argument modulo 2^64 (R8). -/
theorem dvd_toInt_wrap64_sub (r : Int) : (2 ^ 64 : Int) ∣ (wrap64 r).toInt - r := by
  unfold wrap64
  rw [BitVec.toInt_ofInt]
  exact Int.dvd_of_emod_eq_zero (Int.emod_eq_emod_iff_emod_sub_eq_zero.1 Int.bmod_emod)

theorem overflowFault_of_storable {cfg : Config} {r : Int} (h : storable cfg r = true) : overflowFault cfg r = none :=
  if_pos h

theorem storable_of_inI64 {cfg : Config} {r : Int} (h : inI64 r = true) : storable cfg r = true := by
  rw [storable, h, Bool.true_or]

theorem storable_of_wrap {cfg : Config} (h : cfg.overflowPolicy = .wrap) (r : Int) : storable cfg r = true := by
  rw [storable, decide_eq_true h, Bool.or_true]

theorem storable_eq_false_of_fault {cfg : Config} {r : Int} (hr : inI64 r = false) (h : cfg.overflowPolicy = .fault) :
    storable cfg r = false := by
  rw [storable, hr, h]
  rfl

theorem aluResult_of_storable {cfg : Config} {r : Int} (h : storable cfg r = true) :
    aluResult cfg r = .ok (wrap64 r) := by
  rw [aluResult_spec, overflowFault_of_storable h]

theorem aluResult_of_not_storable {cfg : Config} {r : Int} (h : storable cfg r = false) :
    aluResult cfg r = .error ⟨.arithmeticOverflow, none, r⟩ := by
  rw [aluResult_spec, overflowFault, h]
  rfl

/-! ## Instructions whose parameters resolve -/

section
variable {m1 m2 m3 : Mode} {s : State}

theorem twoReadsFault_of_readable (h1 : readable .first m1 s = true) (h2 : readable .second m2 s = true) :
    twoReadsFault m1 m2 s = none :=
  Option.or_eq_none_iff.2 ⟨(readFault_eq_none_iff ..).2 h1, (readFault_eq_none_iff ..).2 h2⟩

/-- The three parameters of opcodes 1, 2, 7 and 8 resolve (R88, step 5). -/
theorem parametersFault_of_accessible (h1 : readable .first m1 s = true) (h2 : readable .second m2 s = true)
    (h3 : writable .third m3 s = true) : (twoReadsFault m1 m2 s).or (writeFault .third m3 s) = none :=
  Option.or_eq_none_iff.2 ⟨twoReadsFault_of_readable h1 h2, (writeFault_eq_none_iff ..).2 h3⟩

/-- ADD where no step of R88 faults (R64). -/
theorem exec_add_of_storable (h1 : readable .first m1 s = true) (h2 : readable .second m2 s = true)
    (h3 : writable .third m3 s = true)
    (hr : storable s.cfg (operandInt .first m1 s + operandInt .second m2 s) = true) :
    exec (.add m1 m2 m3) s =
      .next (stored m1 m2 m3 (wrap64 (operandInt .first m1 s + operandInt .second m2 s)) s) := by
  have hf : firstFault (.add m1 m2 m3) s = none :=
    Option.or_eq_none_iff.2 ⟨parametersFault_of_accessible h1 h2 h3, overflowFault_of_storable hr⟩
  rw [exec_add_spec, hf]

/-- MUL where no step of R88 faults (R65). -/
theorem exec_mul_of_storable (h1 : readable .first m1 s = true) (h2 : readable .second m2 s = true)
    (h3 : writable .third m3 s = true)
    (hr : storable s.cfg (operandInt .first m1 s * operandInt .second m2 s) = true) :
    exec (.mul m1 m2 m3) s =
      .next (stored m1 m2 m3 (wrap64 (operandInt .first m1 s * operandInt .second m2 s)) s) := by
  have hf : firstFault (.mul m1 m2 m3) s = none :=
    Option.or_eq_none_iff.2 ⟨parametersFault_of_accessible h1 h2 h3, overflowFault_of_storable hr⟩
  rw [exec_mul_spec, hf]

end

end Sys2Proof.Machine
end

section
/-! ADD, MUL and the ALU result rule (40_arithmetic.md R63 to R65). -/

namespace Sys2Proof.Machine

/-- Settles O7: the stored word is `wrap64` of the exact sum. -/
theorem addStoresTheSum : Obligations.AddStoresTheSum := by
  intro m1 m2 m3 s h1 h2 h3 hr
  exact ⟨_, toInt_wrap64, dvd_toInt_wrap64_sub _, exec_add_of_storable h1 h2 h3 hr⟩

/-- Settles O8: the stored word is `wrap64` of the exact product. -/
theorem mulStoresTheProduct : Obligations.MulStoresTheProduct := by
  intro m1 m2 m3 s h1 h2 h3 hr
  exact ⟨_, toInt_wrap64, dvd_toInt_wrap64_sub _, exec_mul_of_storable h1 h2 h3 hr⟩

/-- Settles O18: the result is storable in the first two clauses, and raised in the third. -/
theorem aluResultIsExactOrByPolicy : Obligations.AluResultIsExactOrByPolicy := by
  intro cfg r
  refine ⟨?inRange, ?wraps, ?faults⟩
  case inRange =>
    intro h
    exact ⟨_, aluResult_of_storable (storable_of_inI64 h), toInt_wrap64 h⟩
  case wraps =>
    intro _ hw
    exact ⟨_, aluResult_of_storable (storable_of_wrap hw r), dvd_toInt_wrap64_sub r⟩
  case faults =>
    intro h hf
    exact aluResult_of_not_storable (storable_eq_false_of_fault h hf)

end Sys2Proof.Machine
end

section
/-! IN and OUT (41_io.md R67, R68): the outcome where the parameter resolves, the suspension on an empty queue, and the
frame of IN. -/

namespace Sys2Proof.Machine

/-! ## IN on an empty and on a filled queue -/

/-- With a value queued, IN faults exactly as its write parameter does (R88, step 5). -/
theorem firstFault_inp_of_queued {m1 : Mode} {s : State} (h : s.iq ≠ []) :
    firstFault (.inp m1) s = writeFault .first m1 s :=
  if_neg h

/-- A suspending IN accesses no cell and moves no pc (R67, decision D11). -/
theorem completed_inp_of_empty {m1 : Mode} {s : State} (h : s.iq = []) :
    completed (.inp m1) s = s.setRunState .awaitingInput := by
  have hf : firstFault (.inp m1) s = none := if_pos h
  have hexec := exec_spec (.inp m1) s
  rw [exec_inp_empty_spec m1 s h, hf] at hexec
  exact (Host.Outcome.next.inj hexec).symm

/-- With a value queued, IN writes it at its parameter's target (R67, R36). -/
theorem storedWord_inp_of_queued {m1 : Mode} {s : State} {v : Word} {rest : List Word} (h : s.iq = v :: rest) :
    storedWord (.inp m1) s = some (writeTarget .first m1 s, v) := by
  rw [storedWord, h]
  rfl

/-! ## The statements -/

/-- Settles O11: a writable target leaves IN without a fault. -/
theorem inputStoresTheOldestValue : Obligations.InputStoresTheOldestValue := by
  intro m1 s v rest hq hw
  have hf : firstFault (.inp m1) s = none :=
    (firstFault_inp_of_queued (by simp [hq])).trans ((writeFault_eq_none_iff ..).2 hw)
  rw [exec_inp_spec m1 s hq, hf]
  rfl

/-- Settles O12: the parameter is not resolved, so its mode does not matter. -/
theorem inputSuspendsOnAnEmptyQueue : Obligations.InputSuspendsOnAnEmptyQueue :=
  exec_inp_empty_spec

/-- Settles O13: a readable operand leaves OUT without a fault. -/
theorem outputAppendsTheOperand : Obligations.OutputAppendsTheOperand := by
  intro m1 s hr
  have hf : firstFault (.out m1) s = none := (readFault_eq_none_iff ..).2 hr
  rw [exec_out_spec, hf]
  rfl

/-- Settles O20: on an empty queue the completed state is the suspended one; on a filled one the stored word stands at
the target that `writeAddr` resolves, and a write leaves every other cell alone. -/
theorem inputChangesItsTargetOrNothing : Obligations.InputChangesItsTargetOrNothing := by
  intro m1 s t hs hexec ht
  obtain ⟨hf, rfl⟩ := exec_safe hexec ht
  refine ⟨keepsMachine_completed _ s, rfl, rfl, ?empty, ?queued⟩
  case empty =>
    intro hq
    rw [completed_inp_of_empty hq]
    exact ⟨rfl, rfl, hq, rfl⟩
  case queued =>
    intro hne
    obtain ⟨v, rest, hq⟩ := List.exists_cons_of_ne_nil hne
    rw [firstFault_inp_of_queued hne] at hf
    have htarget := writeAddr_of_no_fault hf
    refine ⟨(if_neg hne).trans hs, rfl, ⟨_, _, htarget⟩, ?_⟩
    intro c s' hc a ha
    rw [htarget] at hc
    cases hc
    exact read_nextMem_of_ne (storedWord_inp_of_queued hq) ha

end Sys2Proof.Machine
end

section
/-! JT and JF (42_jumps.md R69, R70): with both parameters readable, a jump faults only where it is taken to a negative
target, and else completes. -/

namespace Sys2Proof.Machine

/-! ## Jumps that do not fault -/

/-- An instruction for which no step of R88 faults ends in its completed state. -/
theorem exec_of_firstFault_eq_none {i : Instr} {s : State} (h : firstFault i s = none) :
    exec i s = .next (completed i s) := by
  rw [exec_spec, h]

/-- A jump's own fault is absent exactly when the jump is not taken or its target is not negative (R69, R70). -/
theorem jumpFault_eq_none_iff (taken : Prop) [Decidable taken] (target : Int) :
    jumpFault (decide taken) target = none ↔ (taken → 0 ≤ target) := by
  simp [jumpFault]

/-- The parameters and the operation of a jump, steps 5 and 6 of R88, raise nothing. -/
theorem twoReadsFault_or_jumpFault_eq_none {m1 m2 : Mode} {s : State} {taken : Prop} [Decidable taken]
    (h1 : readable .first m1 s = true) (h2 : readable .second m2 s = true)
    (htarget : taken → 0 ≤ operandInt .second m2 s) :
    (twoReadsFault m1 m2 s).or (jumpFault (decide taken) (operandInt .second m2 s)) = none :=
  Option.or_eq_none_iff.2 ⟨twoReadsFault_of_readable h1 h2, (jumpFault_eq_none_iff ..).2 htarget⟩

/-! ## The statements -/

/-- Settles O14: JT does not fault, so it ends in the completed state, whose pc is the target exactly on a non-zero
condition. -/
theorem jumpIfTrueJumpsOnNonZero : Obligations.JumpIfTrueJumpsOnNonZero := by
  intro m1 m2 s h1 h2 htarget
  have hf : firstFault (.jt m1 m2) s = none := twoReadsFault_or_jumpFault_eq_none h1 h2 htarget
  exact exec_of_firstFault_eq_none hf

/-- Settles O15: JF does not fault, so it ends in the completed state, whose pc is the target exactly on a zero
condition. -/
theorem jumpIfFalseJumpsOnZero : Obligations.JumpIfFalseJumpsOnZero := by
  intro m1 m2 s h1 h2 htarget
  have hf : firstFault (.jf m1 m2) s = none := twoReadsFault_or_jumpFault_eq_none h1 h2 htarget
  exact exec_of_firstFault_eq_none hf

end Sys2Proof.Machine
end

section
/-! LT and EQ (43_compare.md R72, R73): a comparison has no operation fault, so with its three parameters resolved it
stores its truth word. -/

namespace Sys2Proof.Machine

/-! ## Comparisons whose parameters resolve -/

/-- The word a comparison stores is 1 where it holds, and else 0 (R72, R73). -/
theorem truthWord_decide (p : Prop) [Decidable p] : truthWord (decide p) = if p then 1#64 else 0#64 := by
  simp only [truthWord, decide_eq_true_eq]

/-- Two operands are the same integer exactly when they are the same word. -/
theorem operandInt_eq_iff {i j : ParamIndex} {m n : Mode} {s : State} :
    operandInt i m s = operandInt j n s ↔ operandValue i m s = operandValue j n s :=
  BitVec.toInt_inj

/-! ## The statements -/

/-- Settles O9: with the three parameters resolved LT does not fault, and stores the truth word of the signed
comparison. -/
theorem ltStoresTheSignedComparison : Obligations.LtStoresTheSignedComparison := by
  intro m1 m2 m3 s h1 h2 h3
  have hf : firstFault (.lt m1 m2 m3) s = none := parametersFault_of_accessible h1 h2 h3
  rw [exec_lt_spec, hf, ← truthWord_decide]
  rfl

/-- Settles O10: as LT, and the signed comparison that EQ makes holds exactly where the two words are the same. -/
theorem eqStoresTheEquality : Obligations.EqStoresTheEquality := by
  intro m1 m2 m3 s h1 h2 h3
  have hf : firstFault (.eq m1 m2 m3) s = none := parametersFault_of_accessible h1 h2 h3
  rw [exec_eq_spec, hf, ← truthWord_decide, decide_eq_decide.2 operandInt_eq_iff]
  rfl

end Sys2Proof.Machine
end

section
/-! ARB and HLT (44_base_and_halt.md R74, R75), and the halted instance, which acts on nothing but the host's commands
(60_exceptions.md R103, 70_reset_and_hazards.md R106, R107). -/

namespace Sys2Proof.Machine

/-! ## The halted instance -/

/-- Only a `Running` engine makes passes of the loop (R60): in any other run state, a step is a host command. -/
theorem step_not_running {s t : State} (hs : s.state ≠ .running) (h : step s = .next t) :
    s.busy = false ∧ ∃ c rest, s.commands = c :: rest ∧ hostCommand c { s with commands := rest } = .next t := by
  rcases step_cases h with ⟨_, hr, _⟩ | ⟨_, hr, _⟩ | ⟨_, hr, _⟩ | ⟨_, hr, _⟩ | hcommand
  · exact absurd hr hs
  · exact absurd hr hs
  · exact absurd hr hs
  · exact absurd hr hs
  · exact hcommand

/-- All that an accepted host command can do to a halted engine: load an image, or answer, with the input queue at most
longer at its tail and the output queue at most shorter at its head. Its `run` answers at once (R91). -/
theorem hostCommand_halted_cases {c : Command} {s t : State} (h : hostCommand c s = .next t)
    (hs : s.state = .halted) :
    (∃ image r, c.Loads image ∧ t = (loadState image s).reply r) ∨
      ∃ iq oq r, s.iq <+: iq ∧ oq <:+ s.oq ∧ t = ((s.setIq iq).setOq oq).reply r := by
  obtain ⟨hb, -⟩ := hostCommand_cases h
  unfold hostCommand at h
  rw [if_neg (by simp [hb]), if_neg (by simp [hs])] at h
  cases c with
  | fromProgram image =>
    simp only [commandFromProgram] at h
    split at h <;> cases h
    exact .inl ⟨image, _, .inr rfl, rfl⟩
  | reset image =>
    simp only [commandReset] at h
    split at h <;> cases h
    exact .inl ⟨image, _, .inl rfl, rfl⟩
  | writeInput v =>
    cases h
    exact .inr ⟨s.iq ++ [v], s.oq, _, List.prefix_append .., List.suffix_rfl, rfl⟩
  | readOutput =>
    simp only [commandReadOutput] at h
    split at h <;> cases h
    · exact .inr ⟨s.iq, s.oq, _, List.prefix_rfl, List.suffix_rfl, rfl⟩
    · next v rest hq => exact .inr ⟨s.iq, rest, _, List.prefix_rfl, hq ▸ List.suffix_cons v rest, rfl⟩
  | run =>
    simp only [commandRun, hs] at h
    cases h
    exact .inr ⟨s.iq, s.oq, _, List.prefix_rfl, List.suffix_rfl, rfl⟩
  | halted | peekMemory =>
    cases h
    exact .inr ⟨s.iq, s.oq, _, List.prefix_rfl, List.suffix_rfl, rfl⟩

/-- The model's load state is the one of R26, whatever is then replied. -/
theorem isLoadState_reply_loadState (image : List Word) (s : State) (r : Reply) :
    isLoadState image ((loadState image s).reply r) :=
  ⟨Memory.read_ofImage image, rfl, rfl, rfl, rfl, rfl, rfl, rfl, rfl, rfl⟩

/-! ## The statements -/

/-- Settles O16: a readable operand and a storable sum leave ARB without a fault, and the new `rb` is `wrap64` of the
exact sum. -/
theorem adjustBaseAddsToRb : Obligations.AdjustBaseAddsToRb := by
  intro m1 s h1 hr
  have hf : firstFault (.arb m1) s = none :=
    Option.or_eq_none_iff.2 ⟨(readFault_eq_none_iff ..).2 h1, overflowFault_of_storable hr⟩
  exact ⟨_, toInt_wrap64, dvd_toInt_wrap64_sub _, exec_of_firstFault_eq_none hf⟩

/-- Settles O42: a step of a halted instance is a host command, which loads or touches nothing but the queues and the
replies. -/
theorem haltedEndsOnlyByALoad : Obligations.HaltedEndsOnlyByALoad := by
  intro s t hs hstep
  obtain ⟨hb, c, rest, hc, hcommand⟩ := step_not_running (by simp [hs]) hstep
  rcases hostCommand_halted_cases hcommand hs with
    ⟨image, r, hload, rfl⟩ | ⟨iq, oq, r, ⟨added, hiq⟩, ⟨taken, hoq⟩, rfl⟩
  · exact .inr ⟨image, rest, hload.imp (hc.trans <| by rw [·]) (hc.trans <| by rw [·]),
      isLoadState_reply_loadState ..⟩
  · exact .inl ⟨hs, hb, rfl, rfl, rfl, ⟨added, hiq.symm⟩, taken, hoq.symm⟩

/-- Settles O17: HLT accesses no cell and moves no pc, so its spec is the statement (R75). -/
theorem haltOnlySetsHalted : Obligations.HaltOnlySetsHalted :=
  exec_hlt_spec

end Sys2Proof.Machine
end

section
/-! SUPPORT. One pass of the run loop as its first fault in the order of R88, taken, or the completed instruction with
the loop's tail (60_exceptions.md R86, R88, R91). -/

namespace Sys2Proof.Machine

/-! ## The pass, from its checks to its next state -/

theorem fetching_iff {s : State} :
    fetching s = true ↔ s.busy = true ∧ s.state = .running ∧ budgetSpent s = false := by
  simp [fetching, and_assoc]

/-- The four places a fault of a pass can come from, in the order of R88, each with the checks before it passed. -/
theorem passFault_cases {s : State} {word : Option Word} {r : Raise} (h : passFault s = some (word, r)) :
    (budgetSpent s = true ∧ word = none ∧ r = ⟨.stepLimitExceeded, none, (s.steps : Int)⟩) ∨
    (budgetSpent s = false ∧ s.cfg.memLimit ≤ s.pc.toNat ∧ word = none ∧
      r = ⟨.memoryExhausted, none, (s.pc.toNat : Int)⟩) ∨
    (budgetSpent s = false ∧ s.pc.toNat < s.cfg.memLimit ∧ (∃ e, decode (s.mem.read s.pc.toNat) = .error e) ∧
      word = some (s.mem.read s.pc.toNat) ∧ r = invalidOpcode (s.mem.read s.pc.toNat)) ∨
    (budgetSpent s = false ∧ s.pc.toNat < s.cfg.memLimit ∧
      ∃ i, decode (s.mem.read s.pc.toNat) = .ok i ∧ word = some (s.mem.read s.pc.toNat) ∧ firstFault i s = some r) := by
  unfold passFault at h
  split at h
  · next hb => cases h; exact .inl ⟨hb, rfl, rfl⟩
  · next hb =>
    rw [Bool.not_eq_true] at hb
    split at h
    · next hl => cases h; exact .inr (.inl ⟨hb, hl, rfl, rfl⟩)
    · next hl =>
      have hpc := Nat.lt_of_not_le hl
      dsimp only at h
      split at h
      · next e he => cases h; exact .inr (.inr (.inl ⟨hb, hpc, ⟨e, he⟩, rfl, rfl⟩))
      · next i hi =>
        obtain ⟨r', hr', heq⟩ := Option.map_eq_some_iff.1 h
        cases heq
        exact .inr (.inr (.inr ⟨hb, hpc, i, hi, rfl, hr'⟩))

/-- A pass without a fault reaches an instruction that has none. -/
theorem passFault_eq_none_iff {s : State} :
    passFault s = none ↔
      budgetSpent s = false ∧ s.pc.toNat < s.cfg.memLimit ∧
        ∃ i, decode (s.mem.read s.pc.toNat) = .ok i ∧ firstFault i s = none := by
  unfold passFault
  cases budgetSpent s with
  | true => simp
  | false =>
    by_cases hl : s.cfg.memLimit ≤ s.pc.toNat
    · simp [hl]
    · have hpc := Nat.lt_of_not_le hl
      cases hd : decode (s.mem.read s.pc.toNat) <;> simp [hl, hd, hpc]

theorem passFault_of_decode_error {s : State} {e : DecodeError} (hb : budgetSpent s = false)
    (hpc : s.pc.toNat < s.cfg.memLimit) (hd : decode (s.mem.read s.pc.toNat) = .error e) :
    passFault s = some (some (s.mem.read s.pc.toNat), invalidOpcode (s.mem.read s.pc.toNat)) := by
  simp [passFault, hb, Nat.not_le_of_lt hpc, hd, invalidOpcode]

@[simp] theorem firstFault_fetched (i : Instr) (s : State) : firstFault i (fetched s) = firstFault i s :=
  firstFault_touched i s [s.pc.toNat]

/-- An instruction for which a step of R88 faults takes that fault. -/
theorem exec_of_firstFault_eq_some {i : Instr} {s : State} {r : Raise} (h : firstFault i s = some r) :
    exec i s = .next (takeFault (some (s.mem.read s.pc.toNat)) r s) := by
  rw [exec_spec, h]

/-- A busy engine in `Running` makes a pass of the run loop (R60). -/
theorem step_eq_loopPass {s : State} (hb : s.busy = true) (hr : s.state = .running) : step s = loopPass s := by
  simp [step, engineStep, hb, hr]

/-- A pass with a fault takes it (R86): the extensions made before it are lost in the unspecified memory. -/
theorem step_of_passFault {s : State} {word : Option Word} {r : Raise} (hb : s.busy = true) (hr : s.state = .running)
    (h : passFault s = some (word, r)) : step s = .next (takeFault word r s) := by
  rcases passFault_cases h with
    ⟨hspent, rfl, rfl⟩ | ⟨hspent, hl, rfl, rfl⟩ | ⟨hspent, hpc, ⟨e, he⟩, rfl, rfl⟩ | ⟨hspent, hpc, i, hi, rfl, hf⟩
  · rw [step_eq_loopPass hb hr, loopPass, if_pos hspent]
  · simp [step_eq_loopPass hb hr, loopPass, hspent, fetchAndExecute, fetchWord_spec, hl]
  · simp only [step_eq_loopPass hb hr, loopPass, hspent, fetchAndExecute, fetchWord_spec, Nat.not_le_of_lt hpc, he,
      if_false, Bool.false_eq_true]
    rfl
  · rw [step_decoded (fetching_iff.2 ⟨hb, hr, hspent⟩) hpc hi,
      exec_of_firstFault_eq_some ((firstFault_fetched i s).trans hf), State.setMem_mem, State.setMem_pc,
      Memory.read_touch]
    rfl

/-- A pass without a fault completes the instruction at the pc (R60, R91). -/
theorem step_of_passFault_eq_none {s : State} {i : Instr} (hb : s.busy = true) (hr : s.state = .running)
    (h : passFault s = none) (hi : decode (s.mem.read s.pc.toNat) = .ok i) :
    step s = .next (loopTail (completed i (fetched s))) := by
  obtain ⟨hspent, hpc, j, hj, hf⟩ := passFault_eq_none_iff.1 h
  cases hi.symm.trans hj
  rw [step_decoded (fetching_iff.2 ⟨hb, hr, hspent⟩) hpc hi,
    exec_of_firstFault_eq_none ((firstFault_fetched i s).trans hf)]
  rfl

/-- Busy in another run state than `Running`, the engine stops (R60). -/
theorem step_busyNotRunning {s : State} (hb : s.busy = true) (hr : s.state ≠ .running) :
    step s = .fault .busyNotRunning := by
  simp [step, engineStep, hb, hr]

/-- With no run in progress and no command waiting, the engine stops (R103). -/
theorem step_idle {s : State} (hb : s.busy = false) (hc : s.commands = []) : step s = .fault .idle := by
  simp [step, engineStep, hb, idleStep, hc]

/-- All that a step of a busy engine can be. -/
theorem step_busy_cases {s t : State} (hb : s.busy = true) (h : step s = .next t) :
    s.state = .running ∧
      ((∃ word r, passFault s = some (word, r) ∧ t = takeFault word r s) ∨
        (passFault s = none ∧ ∃ i, decode (s.mem.read s.pc.toNat) = .ok i ∧
          t = loopTail (completed i (fetched s)))) := by
  by_cases hr : s.state = .running
  · refine ⟨hr, ?_⟩
    cases hp : passFault s with
    | some p =>
      rw [step_of_passFault hb hr hp] at h
      cases h
      exact .inl ⟨_, _, rfl, rfl⟩
    | none =>
      obtain ⟨-, -, i, hi, -⟩ := passFault_eq_none_iff.1 hp
      rw [step_of_passFault_eq_none hb hr hp hi] at h
      cases h
      exact .inr ⟨rfl, i, hi, rfl⟩
  · rw [step_busyNotRunning hb hr] at h
    cases h

end Sys2Proof.Machine
end

section
/-! The unspecified state after a fault (60_exceptions.md R86, R87; 93_implementation_defined.md U1): nothing a step
answers depends on it. -/

namespace Sys2Proof.Machine

/-! ## The counter of free values -/

/-- The state with another counter of free values (log entry 2). -/
def State.withDraws (s : State) (n : Nat) : State := { s with freeDraws := n }

/-- A state differs from one with another counter in nothing the host can see. -/
theorem sameToHost_withDraws (s : State) (n : Nat) : SameToHost s (s.withDraws n) :=
  ⟨rfl, rfl, rfl, rfl, rfl, rfl, rfl, fun _ => rfl, fun _ => rfl, fun _ => rfl, fun _ => rfl, fun _ => rfl⟩

/-- Where nothing is unspecified, the counter is all that two states the host cannot tell apart can differ in. -/
theorem SameToHost.exists_withDraws {s t : State} (h : SameToHost s t) (hs : s.safe = true) :
    ∃ n, t = s.withDraws n := by
  obtain ⟨hcfg, hstate, hbusy, hsteps, hfault, hcommands, hreplies, hmem, hpc, hrb, hiq, hoq⟩ := h
  refine ⟨t.freeDraws, ?_⟩
  simp only [State.withDraws, hcfg, hstate, hbusy, hsteps, hfault, hcommands, hreplies, hmem hs, hpc hs, hrb hs,
    hiq hs, hoq hs]

theorem loopTail_withDraws (s : State) (n : Nat) : loopTail (s.withDraws n) = (loopTail s).withDraws n := by
  obtain ⟨_, _, _, _, state, _⟩ := s
  cases state <;> rfl

/-! ## Two such states under one step -/

section
variable {s t : State}

/-- A load leaves nothing unspecified, so it makes even two faulted instances the same (R87). -/
theorem SameToHost.load (h : SameToHost s t) (image : List Word) (r : Reply) :
    SameToHost ((loadState image s).reply r) ((loadState image t).reply r) where
  cfg := h.cfg
  state := rfl
  busy := rfl
  steps := rfl
  fault := rfl
  commands := h.commands
  replies := congrArg (· ++ [r]) h.replies
  mem _ := rfl
  pc _ := rfl
  rb _ := rfl
  iq _ := rfl
  oq _ := rfl

/-- The host's command taken from both lists. -/
theorem SameToHost.takeCommand (h : SameToHost s t) (rest : List Command) :
    SameToHost { s with commands := rest } { t with commands := rest } :=
  ⟨h.cfg, h.state, h.busy, h.steps, h.fault, rfl, h.replies, h.mem, h.pc, h.rb, h.iq, h.oq⟩

/-- The same fault taken in both leaves the same record and answer, and all else unspecified (R86). -/
theorem sameToHost_takeFault (s : State) (n : Nat) (word : Option Word) (r : Raise) :
    SameToHost (takeFault word r s) (takeFault word r (s.withDraws n)) :=
  ⟨rfl, rfl, rfl, rfl, rfl, rfl, rfl, nofun, nofun, nofun, nofun, nofun⟩

/-- One pass of the run loop: the same fault, or the same instruction completed. -/
theorem SameToHost.sameOutcome_pass (h : SameToHost s t) (hb : s.busy = true) (hr : s.state = .running) :
    SameOutcome (step s) (step t) := by
  obtain ⟨n, rfl⟩ := h.exists_withDraws (by simp [State.safe, hr])
  have hp : passFault (s.withDraws n) = passFault s := rfl
  cases hfault : passFault s with
  | some p =>
    rw [step_of_passFault hb hr hfault, step_of_passFault (s := s.withDraws n) hb hr (hp.trans hfault)]
    exact sameToHost_takeFault s n p.1 p.2
  | none =>
    obtain ⟨-, -, i, hi, -⟩ := passFault_eq_none_iff.1 hfault
    have hcompleted : completed i (fetched (s.withDraws n)) = (completed i (fetched s)).withDraws n := rfl
    rw [step_of_passFault_eq_none hb hr hfault hi,
      step_of_passFault_eq_none (s := s.withDraws n) hb hr (hp.trans hfault) hi, hcompleted, loopTail_withDraws]
    exact sameToHost_withDraws _ n

/-- A host command: refused in both or accepted in both, with the same answer. A faulted instance accepts only
`from_program` (R87). -/
theorem SameToHost.sameOutcome_hostCommand (h : SameToHost s t) (c : Command) :
    SameOutcome (hostCommand c s) (hostCommand c t) := by
  unfold hostCommand
  rw [← h.busy, ← h.state]
  split
  · rfl
  · split
    · rfl
    · next haccepted =>
      have hsafe (hc : c.makesInstance = false) : s.safe = true := by
        simpa [State.safe] using fun hs => haccepted ⟨hs, hc⟩
      cases c with
      | fromProgram image =>
        simp only [commandFromProgram, ← h.cfg]
        split
        · exact h.load image .ready
        · rfl
      | reset image =>
        simp only [commandReset, ← h.cfg]
        split
        · exact h.load image .done
        · rfl
      | writeInput v | halted | peekMemory =>
        obtain ⟨n, rfl⟩ := h.exists_withDraws (hsafe rfl)
        exact sameToHost_withDraws _ n
      | run =>
        obtain ⟨n, rfl⟩ := h.exists_withDraws (hsafe rfl)
        simp only [commandRun, State.withDraws]
        split
        · exact sameToHost_withDraws _ n
        · exact sameToHost_withDraws _ n
        · exact sameToHost_withDraws _ n
        · rfl
      | readOutput =>
        obtain ⟨n, rfl⟩ := h.exists_withDraws (hsafe rfl)
        simp only [commandReadOutput, State.withDraws]
        split
        · exact sameToHost_withDraws _ n
        · exact sameToHost_withDraws _ n

end

/-- Settles O38: a step is a pass, a stop or a host command, and each answers the same in both states. -/
theorem unspecifiedStateIsNeverObserved : Obligations.UnspecifiedStateIsNeverObserved := by
  intro s t h
  cases hb : s.busy with
  | true =>
    by_cases hr : s.state = .running
    · exact h.sameOutcome_pass hb hr
    · rw [step_busyNotRunning hb hr, step_busyNotRunning (h.busy ▸ hb) (h.state ▸ hr)]
      rfl
  | false =>
    have hb' : t.busy = false := h.busy ▸ hb
    cases hc : s.commands with
    | nil =>
      rw [step_idle hb hc, step_idle hb' (h.commands ▸ hc)]
      rfl
    | cons c rest =>
      rw [step_command hb hc, step_command hb' (h.commands ▸ hc)]
      exact (h.takeCommand rest).sameOutcome_hostCommand c

end Sys2Proof.Machine
end

section
/-! SUPPORT. The sources of an instruction's fault and the row of R76 that each meets (60_exceptions.md R76 to R83,
R88). -/

namespace Sys2Proof.Machine

/-! ## Words without an opcode -/

/-- The opcodes of the table (R56, R77). -/
theorem opcode_mem_table (i : Instr) : i.opcode ∈ [1, 2, 3, 4, 5, 6, 7, 8, 9, 99] := by
  cases i <;> simp [Instr.opcode]

/-- A negative word, or one whose two low digits are no opcode, does not decode (R57, R77). -/
theorem decode_error_of_no_opcode {w : Word}
    (h : w.toInt < 0 ∨ w.toNat % 100 ∉ [1, 2, 3, 4, 5, 6, 7, 8, 9, 99]) : ∃ e, decode w = .error e := by
  cases hd : decode w with
  | error e => exact ⟨e, rfl⟩
  | ok i =>
    obtain ⟨hpos, hop, -⟩ := decode_eq_ok_iff.1 hd
    rcases h with hneg | hnone
    · exact absurd hneg (Int.not_lt.2 hpos)
    · exact absurd (hop ▸ opcode_mem_table i) hnone

/-! ## Where a fault of an instruction comes from -/

/-- A read parameter's fault is the fault that the same parameter would have as a write target. -/
theorem writeFault_of_readFault {i : ParamIndex} {m : Mode} {s : State} {r : Raise} (h : readFault i m s = some r) :
    writeFault i m s = some r := by
  unfold readFault at h
  unfold writeFault
  split at h
  · next hl => rwa [if_pos hl]
  · next hl =>
    rw [if_neg hl]
    cases m with
    | immediate => cases h
    | position | relative | undefined k => exact h

theorem writeFault_of_twoReadsFault {m1 m2 : Mode} {s : State} {r : Raise} (h : twoReadsFault m1 m2 s = some r) :
    ∃ p m, writeFault p m s = some r := by
  rcases Option.or_eq_some_iff.1 h with h1 | ⟨-, h2⟩
  · exact ⟨_, _, writeFault_of_readFault h1⟩
  · exact ⟨_, _, writeFault_of_readFault h2⟩

/-- The parameters' fault of opcodes 1, 2, 7 and 8. -/
theorem writeFault_of_parametersFault {m1 m2 m3 : Mode} {s : State} {r : Raise}
    (h : (twoReadsFault m1 m2 s).or (writeFault .third m3 s) = some r) : ∃ p m, writeFault p m s = some r := by
  rcases Option.or_eq_some_iff.1 h with h12 | ⟨-, h3⟩
  · exact writeFault_of_twoReadsFault h12
  · exact ⟨_, _, h3⟩

/-- The three sources of an instruction's fault: a parameter, an arithmetic result, a taken jump (R88, steps 4 to
6). -/
theorem firstFault_cases {i : Instr} {s : State} {r : Raise} (h : firstFault i s = some r) :
    (∃ p m, writeFault p m s = some r) ∨ (∃ v, exactResult i s = some v ∧ overflowFault s.cfg v = some r) ∨
      (∃ taken target, jumpFault taken target = some r) := by
  cases i with
  | add m1 m2 m3 | mul m1 m2 m3 =>
    rcases Option.or_eq_some_iff.1 h with hparam | ⟨-, hover⟩
    · exact .inl (writeFault_of_parametersFault hparam)
    · exact .inr (.inl ⟨_, rfl, hover⟩)
  | arb m1 =>
    rcases Option.or_eq_some_iff.1 h with hread | ⟨-, hover⟩
    · exact .inl ⟨_, _, writeFault_of_readFault hread⟩
    · exact .inr (.inl ⟨_, rfl, hover⟩)
  | jt m1 m2 | jf m1 m2 =>
    rcases Option.or_eq_some_iff.1 h with hparam | ⟨-, hjump⟩
    · exact .inl (writeFault_of_twoReadsFault hparam)
    · exact .inr (.inr ⟨_, _, hjump⟩)
  | lt m1 m2 m3 | eq m1 m2 m3 => exact .inl (writeFault_of_parametersFault h)
  | inp m1 =>
    by_cases hq : s.iq = []
    · simp [firstFault, hq] at h
    · exact .inl ⟨_, _, (firstFault_inp_of_queued hq).symm.trans h⟩
  | out m1 => exact .inl ⟨_, _, writeFault_of_readFault h⟩
  | hlt => cases h

/-! ## What each source raises -/

/-- An exact result that is not stored, raised (R63, R81). -/
theorem overflowFault_eq_some_iff {cfg : Config} {v : Int} {r : Raise} :
    overflowFault cfg v = some r ↔
      cfg.overflowPolicy = .fault ∧ inI64 v = false ∧ r = ⟨.arithmeticOverflow, none, v⟩ := by
  unfold overflowFault storable
  cases inI64 v <;> cases cfg.overflowPolicy <;> simp [eq_comm]

/-- A jump taken to a negative target (R69, R70, R79). -/
theorem jumpFault_eq_some_iff {taken : Bool} {target : Int} {r : Raise} :
    jumpFault taken target = some r ↔ taken = true ∧ target < 0 ∧ r = ⟨.addressFault, none, target⟩ := by
  unfold jumpFault
  cases taken <;> by_cases ht : target < 0 <;> simp [ht, eq_comm]

/-- An address outside the memory (R32): negative or at or beyond `MEM_LIMIT`. -/
theorem accessFault_eq_some_iff {cfg : Config} {p : Option ParamIndex} {a : Int} {r : Raise} :
    accessFault cfg p a = some r ↔
      (a < 0 ∧ r = ⟨.addressFault, p, a⟩) ∨ (0 ≤ a ∧ (cfg.memLimit : Int) ≤ a ∧ r = ⟨.memoryExhausted, p, a⟩) := by
  unfold accessFault
  by_cases hneg : a < 0
  · simp [hneg, eq_comm, Int.not_le_of_gt hneg]
  · by_cases hl : (cfg.memLimit : Int) ≤ a <;> simp [hneg, hl, eq_comm, Int.not_lt.1 hneg]

/-- The fault of a parameter names it and meets its row of R76 (R78 to R80, R82). -/
theorem faultRow_of_writeFault {i : ParamIndex} {m : Mode} {s : State} {r : Raise} (h : writeFault i m s = some r)
    (w : Word) : r.param = some i ∧ faultRow s (faultRecord (some w) r s) := by
  unfold writeFault at h
  split at h
  · next hl =>
    cases h
    exact ⟨rfl, rfl, nofun, _, rfl, Int.ofNat_le.2 hl⟩
  · cases m with
    | undefined k =>
      cases h
      have hk := k.isLt
      exact ⟨rfl, rfl, rfl, rfl, _, rfl, by simp only [Mode.digit]; omega, by simp only [Mode.digit]; omega⟩
    | immediate =>
      cases h
      exact ⟨rfl, rfl, rfl, i, rfl, rfl⟩
    | position | relative =>
      rcases accessFault_eq_some_iff.1 h with ⟨hneg, rfl⟩ | ⟨-, hl, rfl⟩
      · exact ⟨rfl, rfl, rfl, _, rfl, hneg⟩
      · exact ⟨rfl, rfl, nofun, _, rfl, hl⟩

/-- The fault of an instruction meets its row of R76. -/
theorem faultRow_of_firstFault {i : Instr} {s : State} {r : Raise} (h : firstFault i s = some r) (w : Word) :
    faultRow s (faultRecord (some w) r s) := by
  rcases firstFault_cases h with ⟨p, m, hparam⟩ | ⟨v, -, hover⟩ | ⟨taken, target, hjump⟩
  · exact (faultRow_of_writeFault hparam w).2
  · obtain ⟨hpolicy, hv, rfl⟩ := overflowFault_eq_some_iff.1 hover
    exact ⟨rfl, rfl, rfl, hpolicy, v, rfl, hv⟩
  · obtain ⟨-, hneg, rfl⟩ := jumpFault_eq_some_iff.1 hjump
    exact ⟨rfl, rfl, target, rfl, hneg⟩

/-- The fault of a pass meets its row of R76. -/
theorem faultRow_of_passFault {s : State} {word : Option Word} {r : Raise} (h : passFault s = some (word, r)) :
    faultRow s (faultRecord word r s) := by
  rcases passFault_cases h with
    ⟨hspent, rfl, rfl⟩ | ⟨-, hl, rfl, rfl⟩ | ⟨-, -, -, rfl, rfl⟩ | ⟨-, -, i, -, rfl, hf⟩
  · exact ⟨rfl, rfl, rfl, s.steps, of_decide_eq_true hspent, rfl⟩
  · exact ⟨rfl, fun _ => rfl, _, rfl, Int.ofNat_le.2 hl⟩
  · exact ⟨rfl, rfl, _, rfl, rfl⟩
  · exact faultRow_of_firstFault hf _

/-- Of an instruction's sources of faults only an exact result raises `ArithmeticOverflow` (R81). -/
theorem exactResult_of_overflow {i : Instr} {s : State} {r : Raise} (h : firstFault i s = some r)
    (hkind : r.kind = .arithmeticOverflow) :
    s.cfg.overflowPolicy = .fault ∧ ∃ v, exactResult i s = some v ∧ inI64 v = false ∧ r.value = v := by
  rcases firstFault_cases h with ⟨p, m, hparam⟩ | ⟨v, hv, hover⟩ | ⟨taken, target, hjump⟩
  · obtain ⟨hp, hrow⟩ := faultRow_of_writeFault hparam 0#64
    simp [faultRow, faultRecord, hkind, hp] at hrow
  · obtain ⟨hpolicy, hout, rfl⟩ := overflowFault_eq_some_iff.1 hover
    exact ⟨hpolicy, v, hv, hout, rfl⟩
  · obtain ⟨-, -, rfl⟩ := jumpFault_eq_some_iff.1 hjump
    cases hkind

/-- Only the budget check raises `StepLimitExceeded` (R92). -/
theorem kind_ne_stepLimitExceeded {s : State} {word : Option Word} {r : Raise} (hspent : budgetSpent s = false)
    (h : passFault s = some (word, r)) : r.kind ≠ .stepLimitExceeded := by
  rcases passFault_cases h with
    ⟨hspent', -⟩ | ⟨-, -, -, rfl⟩ | ⟨-, -, -, -, rfl⟩ | ⟨-, -, i, -, -, hf⟩
  · rw [hspent] at hspent'
    cases hspent'
  · nofun
  · nofun
  · intro hkind
    have hrow := faultRow_of_firstFault hf 0#64
    simp [faultRow, faultRecord, hkind] at hrow

/-! ## Instructions with a given first fault -/

/-- A parameter's fault of a storing opcode precedes the operation's (R88). -/
theorem firstFault_of_parametersFault {m1 m2 m3 : Mode} {i : Instr} {s : State} {r : Raise}
    (hi : i ∈ [Instr.add m1 m2 m3, .mul m1 m2 m3, .lt m1 m2 m3, .eq m1 m2 m3])
    (h : (twoReadsFault m1 m2 s).or (writeFault .third m3 s) = some r) : firstFault i s = some r := by
  simp only [List.mem_cons, List.not_mem_nil, or_false] at hi
  rcases hi with rfl | rfl | rfl | rfl
  · rw [firstFault, h, Option.some_or]
  · rw [firstFault, h, Option.some_or]
  · exact h
  · exact h

/-- A write parameter in mode 1 whose word lies in the memory (R54, R78). -/
theorem writeFault_immediate {i : ParamIndex} {s : State} (h : paramCell i s < s.cfg.memLimit) :
    writeFault i .immediate s = some ⟨.invalidWriteTarget, some i, (paramWord i s).toInt⟩ :=
  if_neg (Nat.not_le_of_lt h)

/-! ## The steps that raise nothing -/

/-- A step of an instance that has not faulted takes the fault of its pass, or leaves the instance unfaulted and its
record absent or as it was. -/
theorem step_raises_or_keeps {s t : State} (hs : s.safe = true) (h : step s = .next t) :
    (s.busy = true ∧ ∃ word r, passFault s = some (word, r) ∧ t = takeFault word r s) ∨
      (t.safe = true ∧ (t.fault = none ∨ t.fault = s.fault)) := by
  cases hb : s.busy with
  | true =>
    obtain ⟨hr, ⟨word, r, hp, rfl⟩ | ⟨-, i, -, rfl⟩⟩ := step_busy_cases hb h
    · exact .inl ⟨rfl, word, r, hp, rfl⟩
    · exact .inr ⟨by simpa [State.safe] using nextRunState_ne_faulted hr i, .inr (by simp)⟩
  | false =>
    right
    cases hc : s.commands with
    | nil => rw [step_idle hb hc] at h; cases h
    | cons c rest =>
      rw [step_command hb hc] at h
      rcases (hostCommand_cases h).2 with ⟨image, r, -, -, rfl⟩ | ⟨-, -, rfl⟩ | ⟨-, iq, oq, r, rfl⟩
      · exact ⟨rfl, .inl rfl⟩
      · exact ⟨rfl, .inr rfl⟩
      · exact ⟨hs, .inr rfl⟩

end Sys2Proof.Machine
end

section
/-! The faults (60_exceptions.md R76 to R88). -/

namespace Sys2Proof.Machine

/-- Settles O4: such a word does not decode, and a cell beyond the extent holds the word 0, which is one of them. -/
theorem wordsWithoutOpcodeRaiseInvalidOpcode : Obligations.WordsWithoutOpcodeRaiseInvalidOpcode := by
  intro s hf hpc
  obtain ⟨hb, hr, hspent⟩ := fetching_iff.1 hf
  have hraises (h : (s.mem.read s.pc.toNat).toInt < 0 ∨
      (s.mem.read s.pc.toNat).toNat % 100 ∉ [1, 2, 3, 4, 5, 6, 7, 8, 9, 99]) :
      ∃ t, step s = .next t ∧ t.state = .faulted ∧
        t.fault = some ⟨.invalidOpcode, 1, s.pc, some (s.mem.read s.pc.toNat), none,
          some (s.mem.read s.pc.toNat).toInt⟩ := by
    obtain ⟨e, he⟩ := decode_error_of_no_opcode h
    exact ⟨_, step_of_passFault hb hr (passFault_of_decode_error hspent hpc he), rfl, rfl⟩
  refine ⟨hraises, ?_⟩
  intro hwf hbeyond
  rw [Memory.read_beyond hwf hbeyond] at hraises
  exact hraises (.inr (by decide))

/-- Settles O22: a pass takes its first fault, and without one it completes the instruction, which an IN with an empty
queue does by suspending. -/
theorem passReportsTheFirstFaultInOrder : Obligations.PassReportsTheFirstFaultInOrder := by
  intro s hb hr
  refine ⟨?faults, ?completes, ?suspends⟩
  case faults =>
    intro word r hp
    exact ⟨_, step_of_passFault hb hr hp, rfl, rfl⟩
  case completes =>
    intro hp
    obtain ⟨-, -, i, hi, -⟩ := passFault_eq_none_iff.1 hp
    refine ⟨_, step_of_passFault_eq_none hb hr hp hi, ?_, by simp⟩
    simpa using nextRunState_ne_faulted hr i
  case suspends =>
    intro m1 hp hi hq
    refine ⟨_, step_of_passFault_eq_none hb hr hp hi, ?_⟩
    simp [nextRunState, hq]

/-- Settles O23: such a step takes the fault of a pass, which meets its row. -/
theorem faultEntryKeepsTheRecordAndEndsTheRun : Obligations.FaultEntryKeepsTheRecordAndEndsTheRun := by
  intro s t hs hstep ht
  rcases step_raises_or_keeps hs hstep with ⟨hb, word, r, hp, rfl⟩ | ⟨hsafe, -⟩
  · exact ⟨hb, rfl, rfl, rfl, rfl, _, rfl, rfl, rfl, faultRow_of_passFault hp⟩
  · rw [ht] at hsafe
    cases hsafe

/-- Settles O24: with everything before it resolved, the write parameter's fault is the first. -/
theorem immediateWriteTargetFaults : Obligations.ImmediateWriteTargetFaults := by
  intro m1 m2 s
  constructor
  · intro i hi h1 h2 h3
    refine exec_of_firstFault_eq_some (firstFault_of_parametersFault hi ?_)
    rw [twoReadsFault_of_readable h1 h2, Option.none_or, writeFault_immediate h3]
  · intro hq h1
    exact exec_of_firstFault_eq_some ((firstFault_inp_of_queued hq).trans (writeFault_immediate h1))

/-- Settles O25: the record is that of the pass, and only the exact result of its instruction raises this kind. -/
theorem overflowFaultsOnlyUnderTheFaultPolicy : Obligations.OverflowFaultsOnlyUnderTheFaultPolicy := by
  intro s t r hs hstep hrecord hnone hkind
  rcases step_raises_or_keeps hs hstep with ⟨hb, word, raised, hp, rfl⟩ | ⟨-, hkept⟩
  · cases hrecord
    rcases passFault_cases hp with
      ⟨-, -, rfl⟩ | ⟨-, -, -, rfl⟩ | ⟨-, -, -, -, rfl⟩ | ⟨-, -, i, hi, -, hf⟩
    · cases hkind
    · cases hkind
    · cases hkind
    · obtain ⟨hpolicy, v, hv, hout, hvalue⟩ := exactResult_of_overflow hf hkind
      exact ⟨hpolicy, i, v, hi, hv, hout, congrArg some hvalue⟩
  · rw [hnone, or_self, hrecord] at hkept
    cases hkept

end Sys2Proof.Machine
end

section
/-! SUPPORT. The step counter over a pass of the run loop (60_exceptions.md R91, R92), and the input instruction that
suspends a run and resumes it (41_io.md R67; 60_exceptions.md R90). -/

namespace Sys2Proof.Machine

/-! ## The counter -/

theorem budgetSpent_eq_false_iff {s : State} : budgetSpent s = false ↔ s.cfg.stepBudget ≠ some s.steps :=
  decide_eq_false_iff_not

theorem passFault_of_budgetSpent {s : State} (h : budgetSpent s = true) :
    passFault s = some (none, ⟨.stepLimitExceeded, none, (s.steps : Int)⟩) :=
  if_pos h

/-- A completed instruction counts one (R91). -/
theorem loopTail_of_running {t : State} (h : t.state = .running) : loopTail t = t.setSteps (t.steps + 1) := by
  simp only [loopTail, h]

/-- A halt or a suspension ends the `run` with `Ok` and counts none (R91). -/
theorem loopTail_of_stopped {t : State} (h : t.state = .awaitingInput ∨ t.state = .halted) :
    loopTail t = (t.setBusy false).reply .ok := by
  rcases h with h | h <;> simp only [loopTail, h]

/-- A pass of the run loop ends the `run`, or counts one instruction and stays in the loop. -/
theorem pass_ends_or_counts {s : State} (hb : s.busy = true) (hr : s.state = .running) :
    ∃ t, step s = .next t ∧
      (t.busy = false ∨ (t.busy = true ∧ t.cfg = s.cfg ∧ t.steps = s.steps + 1)) := by
  cases hp : passFault s with
  | some p => exact ⟨_, step_of_passFault hb hr hp, .inl rfl⟩
  | none =>
    obtain ⟨-, -, i, hi, -⟩ := passFault_eq_none_iff.1 hp
    refine ⟨_, step_of_passFault_eq_none hb hr hp hi, ?_⟩
    by_cases hrun : (completed i (fetched s)).state = .running
    · rw [loopTail_of_running hrun]
      exact .inr ⟨hb, rfl, rfl⟩
    · refine .inl (loopTail_busy_of_stopped hrun ?_)
      exact (State.safe_iff _).2 (nextRunState_ne_faulted (s := fetched s) hr i)

/-! ## The beginning of a run, and an IN inside it -/

/-- The state in which a `run` begins (R91). -/
def runBegun (s : State) (rest : List Command) : State :=
  { s with commands := rest, state := .running, busy := true, steps := 0 }

/-- The state after `write_input` (R107). -/
def inputWritten (s : State) (v : Word) (rest : List Command) : State :=
  { s with commands := rest, iq := s.iq ++ [v], replies := s.replies ++ [.done] }

theorem hostCommand_run {s : State} (hb : s.busy = false) (hs : s.state ≠ .faulted) :
    hostCommand .run s = commandRun s := by
  simp [hostCommand, hb, hs]

theorem hostCommand_writeInput {s : State} (hb : s.busy = false) (hs : s.state ≠ .faulted) (v : Word) :
    hostCommand (.writeInput v) s = commandWriteInput v s := by
  simp [hostCommand, hb, hs]

/-- A `run` of an instance in `Running` or `AwaitingInput` begins (R91). -/
theorem step_runBegins {s : State} {rest : List Command} (hb : s.busy = false) (hc : s.commands = .run :: rest)
    (hs : s.state = .running ∨ s.state = .awaitingInput) :
    step s = .next (runBegun s rest) := by
  have hrun : hostCommand .run { s with commands := rest } = commandRun { s with commands := rest } :=
    hostCommand_run hb (by rcases hs with hs | hs <;> simp [hs])
  rw [step_command hb hc, hrun]
  rcases hs with hs | hs <;> simp only [commandRun, hs] <;> rfl

/-- A faulted instance accepts no command on itself (R87). -/
theorem hostCommand_faulted {c : Command} {s : State} (hb : s.busy = false) (hs : s.state = .faulted)
    (hc : c.makesInstance = false) : hostCommand c s = .refused .instanceFaulted := by
  simp [hostCommand, hb, hs, hc]

/-- A legal image makes a new instance in the place of any that is idle, even of a faulted one (R87, R105). -/
theorem hostCommand_fromProgram {image : List Word} {s : State} (hb : s.busy = false)
    (hl : legalImage s.cfg image = true) :
    hostCommand (.fromProgram image) s = .next ((loadState image s).reply .ready) := by
  simp [hostCommand, hb, Command.makesInstance, commandFromProgram, hl]

/-- `write_input` on an instance that has not faulted (R107). -/
theorem step_writeInput {s : State} {v : Word} {rest : List Command} (hb : s.busy = false)
    (hc : s.commands = .writeInput v :: rest) (hs : s.state ≠ .faulted) :
    step s = .next (inputWritten s v rest) :=
  (step_command hb hc).trans (hostCommand_writeInput (s := { s with commands := rest }) hb hs v)

/-- A legal budget is not spent before the first instruction (R5, R92). -/
theorem fetching_runBegun {s : State} (hlegal : s.cfg.legal = true) (rest : List Command) :
    fetching (runBegun s rest) = true := by
  refine fetching_iff.2 ⟨rfl, rfl, budgetSpent_eq_false_iff.2 ?_⟩
  intro h0
  simp [Config.legal, show s.cfg.stepBudget = some 0 from h0] at hlegal

/-- With its queue empty, an IN ends the `run` in `AwaitingInput`, its pc unmoved (R67, R90). -/
theorem step_inp_suspends {s : State} {m1 : Mode} (hf : fetching s = true) (hpc : s.pc.toNat < s.cfg.memLimit)
    (hd : decode (s.mem.read s.pc.toNat) = .ok (.inp m1)) (hq : s.iq = []) :
    step s = .next ((((fetched s).setRunState .awaitingInput).setBusy false).reply .ok) := by
  rw [step_decoded hf hpc hd, exec_inp_empty_spec m1 (fetched s) hq]
  rfl

/-- With a value queued and a writable target, an IN completes with that value (R67). -/
theorem step_inp_completes {s : State} {m1 : Mode} {v : Word} {rest : List Word} (hf : fetching s = true)
    (hwf : s.mem.wf = true) (hpc : s.pc.toNat < s.cfg.memLimit)
    (hd : decode (s.mem.read s.pc.toNat) = .ok (.inp m1)) (hq : s.iq = v :: rest)
    (hw : writable .first m1 s = true) :
    ∃ u, step s = .next u ∧ u.state = .running ∧ u.pc = s.pc + 2#64 ∧ u.iq = rest ∧ u.oq = s.oq ∧ u.rb = s.rb ∧
      u.steps = s.steps + 1 ∧ u.mem.read (writeTarget .first m1 s) = v ∧
      keepsCellsBut (writeTarget .first m1 s) s u := by
  have hne : s.iq ≠ [] := by simp [hq]
  have hnone : firstFault (.inp m1) s = none :=
    (firstFault_inp_of_queued hne).trans ((writeFault_eq_none_iff ..).2 hw)
  have hword : storedWord (.inp m1) (fetched s) = some (writeTarget .first m1 s, v) :=
    (storedWord_touched _ s [s.pc.toNat]).trans (storedWord_inp_of_queued hq)
  obtain ⟨hb, hr, hspent⟩ := fetching_iff.1 hf
  have hrun : (completed (.inp m1) (fetched s)).state = .running := (if_neg hne).trans hr
  have hstep := step_of_passFault_eq_none hb hr (passFault_eq_none_iff.2 ⟨hspent, hpc, _, hd, hnone⟩) hd
  rw [loopTail_of_running hrun] at hstep
  refine ⟨_, hstep, hrun, if_neg hne, congrArg List.tail hq, rfl, rfl, rfl, ?stored, ?others⟩
  case stored => exact read_nextMem_stored (Memory.wf_touch hwf _) hword
  case others =>
    intro a ha
    exact (read_nextMem_of_ne hword ha).trans (Memory.read_touch ..)

/-! ## From the suspension to the completed IN -/

/-- The state in which a `run` that has met an IN on an empty queue at once is suspended. -/
def suspended (s : State) (rest : List Command) : State :=
  { s with
    mem := s.mem.touch s.pc.toNat
    commands := rest
    state := .awaitingInput
    busy := false
    steps := 0
    replies := s.replies ++ [.ok] }

theorem writable_suspended (i : ParamIndex) (m : Mode) (s : State) (rest : List Command) :
    writable i m (suspended s rest) = writable i m s := by
  rw [Bool.eq_iff_iff, ← writeFault_eq_none_iff, ← writeFault_eq_none_iff]
  exact iff_of_eq (congrArg (· = none) (writeFault_touched i m s [s.pc.toNat]))

theorem writeTarget_suspended (i : ParamIndex) (m : Mode) (s : State) (rest : List Command) :
    writeTarget i m (suspended s rest) = writeTarget i m s :=
  writeTarget_touched i m s [s.pc.toNat]

/-- A run of `j + k` steps is one of `j` followed by one of `k`. -/
theorem runSteps_add {j : Nat} {s t : State} (h : runSteps j s = .next t) (k : Nat) :
    runSteps (j + k) s = runSteps k t := by
  induction j generalizing s with
  | zero =>
    cases h
    rw [Nat.zero_add]
  | succ j ih =>
    cases hstep : step s with
    | next s' =>
      rw [runSteps_succ hstep] at h
      rw [Nat.succ_add, runSteps_succ hstep, ih h]
    | fault r | refused r => simp [runSteps, hstep] at h

section
variable {s : State} {m1 : Mode} {v : Word} {rest : List Command}

/-- Told to `run` at an IN with its queue empty, the instance suspends. -/
theorem run_suspends (hb : s.busy = false) (hs : s.state = .running ∨ s.state = .awaitingInput)
    (hlegal : s.cfg.legal = true) (hq : s.iq = []) (hpc : s.pc.toNat < s.cfg.memLimit)
    (hd : decode (s.mem.read s.pc.toNat) = .ok (.inp m1)) (hc : s.commands = .run :: rest) :
    runSteps 2 s = .next (suspended s rest) := by
  have hinput := step_inp_suspends (fetching_runBegun hlegal rest) hpc hd hq
  exact (runSteps_succ (step_runBegins hb hc hs) 1).trans (runSteps_succ hinput 0)

/-- Suspended at an IN with a writable target, then given `v` and told to `run`, the instance completes the IN. -/
theorem write_resumes (hb : s.busy = false) (hs : s.state = .awaitingInput) (hlegal : s.cfg.legal = true)
    (hwf : s.mem.wf = true) (hq : s.iq = []) (hpc : s.pc.toNat < s.cfg.memLimit)
    (hd : decode (s.mem.read s.pc.toNat) = .ok (.inp m1)) (hw : writable .first m1 s = true)
    (hc : s.commands = .writeInput v :: .run :: rest) :
    ∃ u, runSteps 3 s = .next u ∧ u.state = .running ∧ u.pc = s.pc + 2#64 ∧ u.iq = [] ∧ u.oq = s.oq ∧ u.rb = s.rb ∧
      u.steps = 1 ∧ u.mem.read (writeTarget .first m1 s) = v ∧ keepsCellsBut (writeTarget .first m1 s) s u := by
  have hqueued : s.iq ++ [v] = v :: [] := by rw [hq, List.nil_append]
  have hwrite := step_writeInput hb hc (by simp [hs])
  have hbegin := step_runBegins (s := inputWritten s v (.run :: rest)) hb rfl (.inr hs)
  obtain ⟨u, hinput, hu⟩ := step_inp_completes (s := runBegun (inputWritten s v (.run :: rest)) rest)
    (fetching_runBegun hlegal rest) hwf hpc hd hqueued hw
  exact ⟨u, (runSteps_succ hwrite 2).trans ((runSteps_succ hbegin 1).trans (runSteps_succ hinput 0)), hu⟩

end

/-! ## Several instances -/

/-- A transition of instance `k` is a step of the state at that place, put back there (R100). -/
theorem stepInstance_cases {k : Nat} {sys sys' : Instances} (h : stepInstance k sys = .next sys') :
    ∃ s t, sys[k]? = some s ∧ step s = .next t ∧ sys' = sys.set k t := by
  unfold stepInstance at h
  split at h
  · cases h
  · next s hs =>
    split at h <;> cases h
    next t ht => exact ⟨s, t, hs, ht, rfl⟩

end Sys2Proof.Machine
end

section
/-! The run loop, its step budget, suspension, and the instances (60_exceptions.md R87, R90 to R93, R100). -/

namespace Sys2Proof.Machine

/-- Settles O40: a spent budget is the pass's first fault, and no other check raises it; the loop's tail counts only an
instruction that leaves the engine running. -/
theorem stepBudgetCountsCompletedInstructions : Obligations.StepBudgetCountsCompletedInstructions := by
  intro s hb hr
  constructor
  · intro hspent
    exact ⟨_, step_of_passFault hb hr (passFault_of_budgetSpent (decide_eq_true hspent)), rfl, rfl⟩
  · intro hleft
    have hspent := budgetSpent_eq_false_iff.2 hleft
    cases hp : passFault s with
    | some p =>
      refine ⟨_, step_of_passFault hb hr hp, ?_, nofun, nofun⟩
      intro r hrecord _
      cases hrecord
      exact kind_ne_stepLimitExceeded hspent hp
    | none =>
      obtain ⟨-, -, i, hi, -⟩ := passFault_eq_none_iff.1 hp
      refine ⟨_, step_of_passFault_eq_none hb hr hp hi, ?record, ?counts, ?stops⟩
      case record =>
        intro r hrecord hnone
        rw [loopTail_fault, completed_fault, State.setMem_fault, hnone] at hrecord
        cases hrecord
      case counts =>
        intro hrun
        rw [loopTail_state] at hrun
        rw [loopTail_of_running hrun]
        rfl
      case stops =>
        intro hstop
        rw [loopTail_state] at hstop
        rw [loopTail_of_stopped hstop]
        rfl

/-- Settles O41: by induction on the instructions left, since a pass that does not end the run counts one of them. -/
theorem finiteBudgetEndsEveryRun : Obligations.FiniteBudgetEndsEveryRun := by
  intro s n hinv hb hn
  induction hleft : n - s.steps using Nat.strong_induction_on generalizing s with
  | _ left ih =>
    obtain ⟨t, hstep, hends | ⟨hbusy, hcfg, hsteps⟩⟩ := pass_ends_or_counts hb (hinv.busy_running hb)
    · exact ⟨1, t, by omega, runSteps_succ hstep 0, hends⟩
    · have hinv' := everyStepKeepsTheInvariant s t hinv hstep
      have hn' : t.cfg.stepBudget = some n := hcfg ▸ hn
      have hle := hinv'.steps_le n hn'
      obtain ⟨k, u, hk, hrun, hidle⟩ := ih (n - t.steps) (by omega) t hinv' hbusy hn' rfl
      exact ⟨k + 1, u, by omega, (runSteps_succ hstep k).trans hrun, hidle⟩

/-- Settles O43: two steps to the suspension, and three from there. -/
theorem suspendedInputResumesWithTheValue : Obligations.SuspendedInputResumesWithTheValue := by
  intro s m1 v rest hb hs hlegal hwf hq hpc hd hw hc
  have hsuspend := run_suspends hb hs hlegal hq hpc hd hc
  obtain ⟨u, hresume, hstate, hupc, huq, huo, hurb, husteps, hstored, hcells⟩ :=
    write_resumes (s := suspended s (.writeInput v :: .run :: rest)) rfl rfl hlegal (Memory.wf_touch hwf _) hq hpc
      (by simpa [suspended] using hd) ((writable_suspended ..).trans hw) rfl
  rw [writeTarget_suspended] at hstored hcells
  exact ⟨_, u, hsuspend, rfl, rfl, rfl, hq, rfl, (runSteps_add hsuspend 3).trans hresume, hstate, hupc, huq, huo, hurb,
    husteps, hstored, fun a ha => (hcells a ha).trans (Memory.read_touch ..)⟩

/-- Settles O26: every command but `from_program` acts on the instance that stands, so it is refused. -/
theorem faultedInstanceRefusesEveryCommand : Obligations.FaultedInstanceRefusesEveryCommand := by
  intro s rest hb hs
  constructor
  · intro c hcommand hc
    have hstands : c.makesInstance = false := by
      rcases hcommand with rfl | rfl | rfl | rfl | ⟨v, rfl⟩ | ⟨image, rfl⟩ <;> rfl
    rw [step_command hb hc]
    exact hostCommand_faulted hb hs hstands
  · intro image hlegal hc
    rw [step_command hb hc]
    exact ⟨_, hostCommand_fromProgram hb hlegal, isLoadState_reply_loadState ..⟩

/-- Settles O39: each run state is one arm of the command. -/
theorem runStartsTheLoop : Obligations.RunStartsTheLoop := by
  intro s rest hb hc
  refine ⟨?halted, step_runBegins hb hc, ?faulted⟩
  case halted =>
    intro hs
    rw [step_command hb hc, hostCommand_run (s := { s with commands := rest }) hb (by simp [hs])]
    simp only [commandRun, hs]
    rfl
  case faulted =>
    intro hs
    rw [step_command hb hc]
    exact hostCommand_faulted hb hs rfl

/-- Settles O51: setting one place of the list leaves the others, and its length. -/
theorem instancesShareNoState : Obligations.InstancesShareNoState := by
  intro k sys sys' h
  obtain ⟨s, t, hs, ht, rfl⟩ := stepInstance_cases h
  obtain ⟨hk, -⟩ := List.getElem?_eq_some_iff.1 hs
  exact ⟨⟨s, t, hs, ht, List.getElem?_set_self hk⟩, fun j hj => List.getElem?_set_ne hj.symm, List.length_set⟩

end Sys2Proof.Machine
end

section
/-! SUPPORT. The host's commands on an idle instance, each as one step (70_reset_and_hazards.md R105 to R111), and two
runs the host cannot tell apart (60_exceptions.md R86, 70_reset_and_hazards.md R116). -/

namespace Sys2Proof.Machine

/-! ## Images -/

/-- What R105 and R106 ask of an image. -/
theorem legalImage_iff {cfg : Config} {image : List Word} :
    legalImage cfg image = true ↔ image ≠ [] ∧ image.length ≤ cfg.memLimit := by
  simp [legalImage]

theorem legalImage_eq_false_iff {cfg : Config} {image : List Word} :
    legalImage cfg image = false ↔ image = [] ∨ cfg.memLimit < image.length := by
  rw [← Bool.not_eq_true, legalImage_iff]
  simp only [ne_eq, not_and_or, not_not, not_le]

theorem createInstance_of_legal {cfg : Config} {image : List Word} (hl : legalImage cfg image = true)
    (sys : Instances) : createInstance cfg image sys = .next (sys ++ [newInstance cfg image]) :=
  if_pos hl

theorem createInstance_of_illegal {cfg : Config} {image : List Word} (hl : legalImage cfg image = false)
    (sys : Instances) : createInstance cfg image sys = .refused .illegalImage :=
  if_neg (by simp [hl])

/-- A fresh instance is in its load state (R26, R105). -/
theorem isLoadState_newInstance (cfg : Config) (image : List Word) : isLoadState image (newInstance cfg image) :=
  isLoadState_reply_loadState image { State.reset with cfg := cfg } .ready

/-! ## The commands on an instance that has not faulted -/

section
variable {s : State}

theorem hostCommand_reset (hb : s.busy = false) (hs : s.state ≠ .faulted) (image : List Word) :
    hostCommand (.reset image) s = commandReset image s := by
  simp [hostCommand, hb, hs]

theorem hostCommand_readOutput (hb : s.busy = false) (hs : s.state ≠ .faulted) :
    hostCommand .readOutput s = commandReadOutput s := by
  simp [hostCommand, hb, hs]

theorem hostCommand_halted (hb : s.busy = false) (hs : s.state ≠ .faulted) :
    hostCommand .halted s = commandHalted s := by
  simp [hostCommand, hb, hs]

theorem hostCommand_peekMemory (hb : s.busy = false) (hs : s.state ≠ .faulted) :
    hostCommand .peekMemory s = commandPeekMemory s := by
  simp [hostCommand, hb, hs]

/-- `reset` with an image of R105 loads it (R106). -/
theorem hostCommand_reset_of_legal {image : List Word} (hb : s.busy = false) (hs : s.state ≠ .faulted)
    (hl : legalImage s.cfg image = true) :
    hostCommand (.reset image) s = .next ((loadState image s).reply .done) :=
  (hostCommand_reset hb hs image).trans (if_pos hl)

theorem hostCommand_reset_of_illegal {image : List Word} (hb : s.busy = false) (hs : s.state ≠ .faulted)
    (hl : legalImage s.cfg image = false) : hostCommand (.reset image) s = .refused .illegalImage :=
  (hostCommand_reset hb hs image).trans (if_neg (by simp [hl]))

/-- `halted` compares the run state with `Halted` (R110). -/
theorem step_halted {rest : List Command} (hb : s.busy = false) (hc : s.commands = .halted :: rest)
    (hs : s.state ≠ .faulted) :
    step s = .next
      { s with commands := rest, replies := s.replies ++ [.flag (decide (s.state = .halted))] } :=
  (step_command hb hc).trans (hostCommand_halted (s := { s with commands := rest }) hb hs)

/-- A step of a faulted instance whose next command needs it to stand (R87). -/
theorem step_faulted {c : Command} {rest : List Command} (hb : s.busy = false) (hc : s.commands = c :: rest)
    (hstands : c.makesInstance = false) (hs : s.state = .faulted) : step s = .refused .instanceFaulted :=
  (step_command hb hc).trans (hostCommand_faulted hb hs hstands)

end

/-! ## The reply of `peek_memory` -/

@[simp] theorem Memory.length_toImage (m : Memory) : m.toImage.length = m.extent := by
  simp [Memory.toImage]

theorem Memory.getD_toImage {m : Memory} {a : Nat} (ha : a < m.extent) (v : Word) :
    m.toImage.getD a v = m.read a := by
  simp [Memory.toImage, ha]

/-! ## Runs from states the host cannot tell apart -/

/-- With the same commands and no replies yet, loads of one image leave nothing for the host to tell apart, whatever
the instances held before. -/
theorem sameToHost_loaded {s s' : State} (hcfg : s.cfg = s'.cfg) (image : List Word) (script : List Command)
    (replies : List Reply) :
    SameToHost { loadState image s with commands := script, replies := replies }
      { loadState image s' with commands := script, replies := replies } :=
  ⟨hcfg, rfl, rfl, rfl, rfl, rfl, rfl, fun _ => rfl, fun _ => rfl, fun _ => rfl, fun _ => rfl, fun _ => rfl⟩

/-- All that two outcomes the host cannot tell apart can be. -/
theorem SameOutcome.cases {o p : Host.Outcome State Fault Refusal} (h : SameOutcome o p) :
    (∃ s t, o = .next s ∧ p = .next t ∧ SameToHost s t) ∨ (∃ r, o = .fault r ∧ p = .fault r) ∨
      ∃ r, o = .refused r ∧ p = .refused r := by
  cases o with
  | next s =>
    cases p with
    | next t => exact .inl ⟨s, t, rfl, rfl, h⟩
    | fault | refused => exact h.elim
  | fault a =>
    cases p with
    | fault b => exact .inr (.inl ⟨a, rfl, congrArg _ (Eq.symm h)⟩)
    | next | refused => exact h.elim
  | refused a =>
    cases p with
    | refused b => exact .inr (.inr ⟨a, rfl, congrArg _ (Eq.symm h)⟩)
    | next | fault => exact h.elim

/-- A step keeps the two states alike (O38), so any number of steps does. -/
theorem SameToHost.sameOutcome_runSteps (k : Nat) {s t : State} (h : SameToHost s t) :
    SameOutcome (runSteps k s) (runSteps k t) := by
  induction k generalizing s t with
  | zero => exact h
  | succ k ih =>
    rcases (unspecifiedStateIsNeverObserved s t h).cases with
      ⟨s', t', hs, ht, h'⟩ | ⟨r, hs, ht⟩ | ⟨r, hs, ht⟩
    · rw [runSteps_succ hs, runSteps_succ ht]
      exact ih h'
    · simp only [runSteps, hs, ht, SameOutcome]
    · simp only [runSteps, hs, ht, SameOutcome]

end Sys2Proof.Machine
end

section
/-! The host's commands, from the making of an instance to the reading of its memory (70_reset_and_hazards.md R105 to
R111), and the determinism they give (R116). -/

namespace Sys2Proof.Machine

/-- Settles O50: both instances are loaded with one image, and what the host sees of a run depends on nothing else. -/
theorem resetMakesRunsRepeatable : Obligations.ResetMakesRunsRepeatable := by
  intro s s' image script k hcfg hb hb' hs hs' hl
  exact ⟨_, _, hostCommand_reset_of_legal hb ((State.safe_iff s).1 hs) hl,
    hostCommand_reset_of_legal hb' ((State.safe_iff s').1 hs') (hcfg ▸ hl),
    (sameToHost_loaded hcfg image script []).sameOutcome_runSteps k⟩

/-- Settles O44: the image is legal or not (R105). -/
theorem fromProgramMakesALoadedInstance : Obligations.FromProgramMakesALoadedInstance := by
  intro cfg image sys
  constructor
  · intro hne hle
    exact ⟨_, createInstance_of_legal (legalImage_iff.2 ⟨hne, hle⟩) sys, isLoadState_newInstance cfg image, rfl⟩
  · intro hbad
    exact createInstance_of_illegal (legalImage_eq_false_iff.2 hbad) sys

/-- Settles O45: a legal image is loaded, and no other is accepted. -/
theorem resetRestoresTheLoadState : Obligations.ResetRestoresTheLoadState := by
  intro s image rest hb hc
  refine ⟨?legal, ?illegal, step_faulted hb hc rfl⟩
  case legal =>
    intro hs hne hle
    rw [step_command hb hc]
    exact ⟨_, hostCommand_reset_of_legal hb hs (legalImage_iff.2 ⟨hne, hle⟩), isLoadState_reply_loadState ..,
      rfl, rfl, rfl⟩
  case illegal =>
    intro hs hbad
    rw [step_command hb hc]
    exact hostCommand_reset_of_illegal hb hs (legalImage_eq_false_iff.2 hbad)

/-- Settles O46: the step is `inputWritten`, which appends and replies. -/
theorem writeInputAppends : Obligations.WriteInputAppends :=
  fun _ _ _ hb hc => ⟨step_writeInput hb hc, step_faulted hb hc rfl⟩

/-- Settles O47: the output queue is empty or has a head. -/
theorem readOutputPopsTheOldest : Obligations.ReadOutputPopsTheOldest := by
  intro s rest hb hc
  have hstep (hs : s.state ≠ .faulted) : step s = commandReadOutput { s with commands := rest } :=
    (step_command hb hc).trans (hostCommand_readOutput (s := { s with commands := rest }) hb hs)
  refine ⟨?empty, ?queued, step_faulted hb hc rfl⟩
  case empty =>
    intro hs hq
    simp only [hstep hs, commandReadOutput, hq]
    rfl
  case queued =>
    intro hs v tail hq
    simp only [hstep hs, commandReadOutput, hq]
    rfl

/-- Settles O48: the flag is decided in each of the three run states. -/
theorem haltedObservesWithoutMutation : Obligations.HaltedObservesWithoutMutation := by
  intro s rest hb hc
  constructor
  · intro hs
    simpa [hs] using step_halted hb hc (by simp [hs])
  · rintro (hs | hs) <;> simpa [hs] using step_halted hb hc (by simp [hs])

/-- Settles O49: the reply is the memory's own image. -/
theorem peekMemoryAnswersTheImage : Obligations.PeekMemoryAnswersTheImage := by
  intro s rest hb hc
  refine ⟨fun hs => ⟨s.mem.toImage, s.mem.length_toImage, fun a ha => Memory.getD_toImage ha 0#64, ?_⟩,
    step_faulted hb hc rfl⟩
  exact (step_command hb hc).trans (hostCommand_peekMemory (s := { s with commands := rest }) hb hs)

end Sys2Proof.Machine
end

section
/-! The loader (70_reset_and_hazards.md R112, R113): its split is the library's at a comma, and its pieces are parsed one
by one until one is no token. -/

namespace Sys2Proof.Machine

/-! ## The parts of the loader as library functions -/

theorem splitCommas_eq_splitOnP (text : List Char) : splitCommas text = text.splitOnP (· = ',') := by
  induction text with
  | nil => rfl
  | cons c rest ih =>
    rw [splitCommas, ih, List.splitOnP_cons_eq_if_modifyHead]
    by_cases hc : c = ','
    · simp [hc]
    · obtain ⟨piece, pieces, hsplit⟩ := List.exists_cons_of_ne_nil (List.splitOnP_ne_nil (· = ',') rest)
      simp [hc, hsplit]

theorem parsePieces_eq_mapM (pieces : List (List Char)) : parsePieces pieces = pieces.mapM parseToken := by
  induction pieces with
  | nil => rfl
  | cons piece rest ih =>
    rw [parsePieces, ih, List.mapM_cons]
    cases parseToken piece <;> cases rest.mapM parseToken <;> rfl

/-! ## Texts joined by a comma -/

theorem splitCommas_append_comma (a b : List Char) :
    splitCommas (a ++ ',' :: b) = splitCommas a ++ splitCommas b := by
  simp only [splitCommas_eq_splitOnP]
  exact List.splitOnP_append_cons a b (by simp)

theorem parsePieces_append (xs ys : List (List Char)) :
    parsePieces (xs ++ ys) =
      (parsePieces xs).bind fun image => (parsePieces ys).map (image ++ ·) := by
  simp only [parsePieces_eq_mapM, List.mapM_append]
  cases xs.mapM parseToken <;> cases ys.mapM parseToken <;> rfl

/-! ## The statements -/

/-- Settles O53: the pieces of the joined text are those of the two, and they parse where both lots do. -/
theorem textsJoinAtCommas : Obligations.TextsJoinAtCommas := by
  intro a b
  simp only [parseProgram, splitCommas_append_comma, parsePieces_append]
  cases parsePieces (splitCommas a) <;> cases parsePieces (splitCommas b) <;> rfl

/-- Settles O52: the loader is evaluated on each text. -/
theorem sampleTextsParseAsListed : Obligations.SampleTextsParseAsListed := by
  unfold Obligations.SampleTextsParseAsListed
  decide

end Sys2Proof.Machine
end

section
/-! The parameters of the implementation, which no step changes (00_scope.md R5; log entry 1), and the placing of a table
word where the next step fetches (log entry 6). -/

namespace Sys2Proof.Machine

/-! ## What keeps the parameters -/

theorem exec_cfg {i : Instr} {s t : State} (h : exec i s = .next t) : t.cfg = s.cfg := by
  rcases exec_cases h with ⟨_, _, rfl⟩ | ⟨_, rfl⟩
  · exact takeFault_cfg ..
  · exact completed_cfg i s

theorem hostCommand_cfg {c : Command} {s t : State} (h : hostCommand c s = .next t) : t.cfg = s.cfg := by
  rcases (hostCommand_cases h).2 with ⟨_, _, _, _, rfl⟩ | ⟨_, _, rfl⟩ | ⟨_, _, _, _, rfl⟩ <;> rfl

/-! ## The memory and the state with a table word placed -/

/-- Storing words only adds cells to the memory. -/
theorem extent_le_extent_storeCells (limit : Nat) (words : List Word) (a : Nat) (m : Memory) :
    m.extent ≤ (storeCells limit a words m).extent := by
  induction words generalizing a m with
  | nil => exact Nat.le_refl _
  | cons w rest ih =>
    have hwrite : m.extent ≤ (if a < limit then m.write a w else m).extent := by
      split
      · rw [Memory.extent_write]
        exact Nat.le_max_left _ _
      · exact Nat.le_refl _
    exact hwrite.trans (ih (a + 1) _)

/-- The cell of the first word stored exists. -/
theorem lt_extent_storeCells {limit a : Nat} (ha : a < limit) (w : Word) (rest : List Word) (m : Memory) :
    a < (storeCells limit a (w :: rest) m).extent := by
  have hrest := extent_le_extent_storeCells limit rest (a + 1) (m.write a w)
  rw [Memory.extent_write] at hrest
  rw [storeCells, if_pos ha]
  omega

theorem decode_of_decodeTableWord {nbits w : Nat} {i : Instr} (h : decodeTableWord nbits w = some i) :
    decode (tableCell nbits w 0) = .ok i := by
  unfold decodeTableWord at h
  split at h
  · next hd => rw [hd, Option.some.inj h]
  · cases h

/-- A fetch inside the extent changes nothing (R32). -/
theorem fetched_of_lt_extent {s : State} (h : s.pc.toNat < s.mem.extent) : fetched s = s := by
  rw [fetched, Memory.touch_of_lt h]
  rfl

/-- Placing a table word begins a `run`, whose budget is not yet spent. -/
theorem fetching_withFetchWord {s : State} (hlegal : s.cfg.legal = true) (nbits w : Nat) :
    fetching (s.withFetchWord nbits w) = true :=
  fetching_runBegun hlegal s.commands

/-! ## The statements -/

/-- Settles O34: a pass takes a fault or completes an instruction, a command loads, begins a `run` or touches the queues,
and none of these writes the parameters. -/
theorem parametersNeverChange : Obligations.ParametersNeverChange := by
  intro s t hstep
  rcases step_cases hstep with ⟨_, _, _, rfl⟩ | ⟨_, _, _, _, rfl⟩ | ⟨_, _, _, _, _, rfl⟩ |
    ⟨_, _, _, _, _, _, _, hexec, rfl⟩ | ⟨_, _, _, _, hcommand⟩
  · exact takeFault_cfg ..
  · exact takeFault_cfg ..
  · exact takeFault_cfg ..
  · rw [loopTail_cfg, exec_cfg hexec, State.setMem_cfg]
  · rw [hostCommand_cfg hcommand]

/-- Settles O6: the table word's first cell stands at the pc, inside the extent, so the fetch reads it and changes
nothing. -/
theorem placedWordIsTheNextInstruction : Obligations.PlacedWordIsTheNextInstruction := by
  intro s nbits w i hlegal hwf hpc hi
  have hword : (s.withFetchWord nbits w).mem.read s.pc.toNat = tableCell nbits w 0 :=
    read_storeCells_first hwf hpc _ _
  have hdecode : decode ((s.withFetchWord nbits w).mem.read s.pc.toNat) = .ok i :=
    hword ▸ decode_of_decodeTableWord hi
  have hfetched : fetched (s.withFetchWord nbits w) = s.withFetchWord nbits w :=
    fetched_of_lt_extent (lt_extent_storeCells hpc _ _ s.mem)
  rw [step_decoded (fetching_withFetchWord hlegal nbits w) hpc hdecode, hfetched]

end Sys2Proof.Machine
end
